-- ==== Sys2Proof/Word.lean ====
section
/-! DEFINITION. The engine's words, bytes and blocks (spec/00_scope.md R6, R11). -/

namespace Sys2Proof

/-- A 32-bit word: a command word or a CSR (R11). -/
abbrev Word := BitVec 32

/-- A byte of a stream or of a block (R11). -/
abbrev Byte := BitVec 8

/-- `BLOCK_BYTES` = B: this hardware has B = 16 and only that value (R6). -/
abbrev blockBytes : Nat := 16

/-- A block: B bytes, index 0 the first byte in stream order (R11). -/
abbrev Block := Vector Byte blockBytes

/-- `KEY_LENGTHS`: the legal key lengths in bytes (R7). -/
abbrev keyLengths : List Nat := [16, 24, 32]

/-- The number of byte counts a command's LEN field can hold: `LEN_BITS` = 24 (R9). -/
abbrev lenLimit : Nat := 2 ^ 24

/-- `0^B`, the block of zero bytes (R11). -/
abbrev zeroBlock : Block := Vector.replicate blockBytes 0#8

end Sys2Proof
end

