-- ==== Sys2Proof/Syntax.lean ====
section
/-! DEFINITION. The command set (spec/30_encoding.md R75, R76): one constructor per row of
spec/opcode_table.json. -/

namespace Sys2Proof

/-- A command. Byte counts are the LEN field (R74); `other` is bits 31:4 of a word with a reserved opcode. -/
inductive Instr where
  /-- ENCRYPT n (R113). -/
  | encrypt (n : Nat)
  /-- DECRYPT n (R114). -/
  | decrypt (n : Nat)
  /-- SETKEY n (R131). -/
  | setkey (n : Nat)
  /-- SETIV n (R132). -/
  | setiv (n : Nat)
  /-- SETMODE m, m the MODE field; 3 decodes and is rejected when it runs (R78, R133). -/
  | setmode (m : BitVec 2)
  /-- CBON (R134). -/
  | cbon
  /-- CBOFF (R135). -/
  | cboff
  /-- RESETFS (R136). -/
  | resetfs
  /-- SETBLKLEN v (R137). -/
  | setblklen (v : Nat)
  /-- A word with the reserved opcode 0x0 (R76). -/
  | reservedZero (other : BitVec 28)
  /-- A word with the reserved opcode 0xA or 0xB (R76). -/
  | reservedAB (op : BitVec 4) (other : BitVec 28)
  /-- A word with a reserved opcode 0xC to 0xF (R76). -/
  | reservedCF (op : BitVec 4) (other : BitVec 28)
  deriving DecidableEq, Repr

/-- What a command word is (R77): a command or a reserved opcode, or a word with a defined opcode that the
decoder rejects with RESERVED_FIELD. -/
inductive Decoded where
  | command (i : Instr)
  | reservedField (w : Word)
  deriving DecidableEq, Repr

/-- The name of the command's row in spec/opcode_table.json. -/
def Instr.mnemonic : Instr → String
  | .encrypt _ => "ENCRYPT"
  | .decrypt _ => "DECRYPT"
  | .setkey _ => "SETKEY"
  | .setiv _ => "SETIV"
  | .setmode _ => "SETMODE"
  | .cbon => "CBON"
  | .cboff => "CBOFF"
  | .resetfs => "RESETFS"
  | .setblklen _ => "SETBLKLEN"
  | .reservedZero _ => "reserved__OP___0x0"
  | .reservedAB _ _ => "reserved__OP___0xA..0xB"
  | .reservedCF _ _ => "reserved__OP___0xC..0xF"

/-- The number of payload bytes the command pops from DIN, accepted or not (R57, R58, R70). -/
def Instr.payloadBytes : Instr → Nat
  | .encrypt n => n
  | .decrypt n => n
  | .setkey n => n
  | .setiv n => n
  | .setmode _ => 0
  | .cbon => 0
  | .cboff => 0
  | .resetfs => 0
  | .setblklen _ => 0
  | .reservedZero _ => 0
  | .reservedAB _ _ => 0
  | .reservedCF _ _ => 0

end Sys2Proof
end

