-- ==== Sys2Proof/WellFormed.lean ====
section
/-! DEFINITION. Which commands a word can spell (spec/00_scope.md R9, spec/30_encoding.md R76). -/

namespace Sys2Proof

/-- A count or value that the 24-bit LEN field holds (R9, R72). -/
def fitsLen (n : Nat) : Bool := decide (n < lenLimit)

/-- The command is one that some command word spells: counts fit LEN, and a reserved opcode stands in the row
it belongs to (R9, R76). -/
def Instr.wellFormed : Instr → Bool
  | .encrypt n => fitsLen n
  | .decrypt n => fitsLen n
  | .setkey n => fitsLen n
  | .setiv n => fitsLen n
  | .setmode _ => true
  | .cbon => true
  | .cboff => true
  | .resetfs => true
  | .setblklen v => fitsLen v
  | .reservedZero _ => true
  | .reservedAB op _ => op == 0xA#4 || op == 0xB#4
  | .reservedCF op _ => op == 0xC#4 || op == 0xD#4 || op == 0xE#4 || op == 0xF#4

end Sys2Proof
end

