-- ==== Sys2Proof/Decode.lean ====
section
/-! DEFINITION. Command words to commands and back (spec/30_encoding.md R71 to R79). A word is one 32-bit unit on
the CMD port, so no byte order enters (R50, R61; notes/assumptions/16). -/

namespace Sys2Proof

/-- OP = w[3:0] (R72). -/
def opField (w : Word) : BitVec 4 := w.extractLsb' 0 4

/-- MODEF = w[5:4] (R72). -/
def modeField (w : Word) : BitVec 2 := w.extractLsb' 4 2

/-- RSV = w[7:6] (R72). -/
def rsvField (w : Word) : BitVec 2 := w.extractLsb' 6 2

/-- LEN = w[31:8] (R72). -/
def lenField (w : Word) : BitVec 24 := w.extractLsb' 8 24

/-- Bits 31:4, which a reserved opcode leaves free (R76). -/
def otherField (w : Word) : BitVec 28 := w.extractLsb' 4 28

/-- The opcodes that require LEN = 0 (R74): SETMODE, CBON, CBOFF, RESETFS. -/
def lenMustBeZero (op : BitVec 4) : Bool := op == 0x5#4 || op == 0x6#4 || op == 0x7#4 || op == 0x8#4

/-- The data-bearing opcodes (R57): ENCRYPT, DECRYPT, SETKEY, SETIV. -/
def dataBearing (op : BitVec 4) : Bool := op == 0x1#4 || op == 0x2#4 || op == 0x3#4 || op == 0x4#4

/-- The opcode map of R75, for the defined opcodes 0x1 to 0x9. -/
def commandOf (op : BitVec 4) (m : BitVec 2) (len : Nat) : Instr :=
  match op.toNat with
  | 1 => .encrypt len
  | 2 => .decrypt len
  | 3 => .setkey len
  | 4 => .setiv len
  | 5 => .setmode m
  | 6 => .cbon
  | 7 => .cboff
  | 8 => .resetfs
  | _ => .setblklen len

/-- R77: the word-level tests in order, the first that holds deciding. Total on every word. -/
def decode (w : Word) : Decoded :=
  if opField w = 0x0#4 then .command (.reservedZero (otherField w))
  else if opField w = 0xA#4 ∨ opField w = 0xB#4 then .command (.reservedAB (opField w) (otherField w))
  else if 0xC ≤ (opField w).toNat then .command (.reservedCF (opField w) (otherField w))
  else if rsvField w ≠ 0#2 then .reservedField w
  else if modeField w ≠ 0#2 ∧ opField w ≠ 0x5#4 then .reservedField w
  else if lenField w ≠ 0#24 ∧ lenMustBeZero (opField w) then .reservedField w
  else .command (commandOf (opField w) (modeField w) (lenField w).toNat)

/-- Format F0 with RSV = 0 (R71): `OP | MODEF << 4 | LEN << 8` (R81). -/
def assemble (op : BitVec 4) (m : BitVec 2) (len : BitVec 24) : Word := len ++ 0#2 ++ m ++ op

/-- The command's word, from the encodings of R75 and R76. -/
def encode : Instr → Word
  | .encrypt n => assemble 0x1#4 0#2 (BitVec.ofNat 24 n)
  | .decrypt n => assemble 0x2#4 0#2 (BitVec.ofNat 24 n)
  | .setkey n => assemble 0x3#4 0#2 (BitVec.ofNat 24 n)
  | .setiv n => assemble 0x4#4 0#2 (BitVec.ofNat 24 n)
  | .setmode m => assemble 0x5#4 m 0#24
  | .cbon => assemble 0x6#4 0#2 0#24
  | .cboff => assemble 0x7#4 0#2 0#24
  | .resetfs => assemble 0x8#4 0#2 0#24
  | .setblklen v => assemble 0x9#4 0#2 (BitVec.ofNat 24 v)
  | .reservedZero other => other ++ 0x0#4
  | .reservedAB op other => other ++ op
  | .reservedCF op other => other ++ op

/-- A row of the match and mask table: a word is the row's when `w &&& mask = pattern` (R79). -/
structure OpcodeRow where
  mnemonic : String
  pattern  : Word
  mask     : Word
  deriving DecidableEq, Repr

/-- R79's table, and the reserved rows of spec/opcode_table.json (R76). -/
def opcodeRows : List OpcodeRow :=
  [ ⟨"ENCRYPT",                 0x00000001#32, 0x000000FF#32⟩,
    ⟨"DECRYPT",                 0x00000002#32, 0x000000FF#32⟩,
    ⟨"SETKEY",                  0x00000003#32, 0x000000FF#32⟩,
    ⟨"SETIV",                   0x00000004#32, 0x000000FF#32⟩,
    ⟨"SETMODE",                 0x00000005#32, 0xFFFFFFCF#32⟩,
    ⟨"CBON",                    0x00000006#32, 0xFFFFFFFF#32⟩,
    ⟨"CBOFF",                   0x00000007#32, 0xFFFFFFFF#32⟩,
    ⟨"RESETFS",                 0x00000008#32, 0xFFFFFFFF#32⟩,
    ⟨"SETBLKLEN",               0x00000009#32, 0x000000FF#32⟩,
    ⟨"reserved__OP___0x0",      0x00000000#32, 0x0000000F#32⟩,
    ⟨"reserved__OP___0xA..0xB", 0x0000000A#32, 0x0000000E#32⟩,
    ⟨"reserved__OP___0xC..0xF", 0x0000000C#32, 0x0000000C#32⟩ ]

/-- The command the decoder reads from an opcode-table word of `nbits` bits: the word with every bit above
`nbits` zero, as CMD would carry it. `none` where the decoder rejects the word. -/
def decodeTableWord (nbits w : Nat) : Option Instr :=
  match decode (BitVec.ofNat 32 (w % 2 ^ nbits)) with
  | .command i => some i
  | .reservedField _ => none

end Sys2Proof
end

