-- ==== Sys2Proof/Config.lean ====
section
/-! DEFINITION. What the spec leaves to the implementation: the block transform, the queue depths, how far
pops run ahead of pushes, and the values a CSR read draws while the engine is busy. Each is opaque: a proof
about the model holds whatever they are (notes/assumptions/2, 3, 4, 5). -/

namespace Sys2Proof

/-- The open parameters of the engine (R8, R10, R64, R35). Each depth is at least 1 (R10), so its excess over 1
is what stands here. The operations take a `Params` so that the spec's test primitive can be put in for `E`. -/
structure Params where
  /-- `E(key, X)`, the forward block transform: any total function of its two arguments (R8, D37). -/
  E          : List Byte → Block → Block
  /-- CMD_DEPTH - 1 (R10). -/
  cmdExtra   : Nat
  /-- DIN_DEPTH - 1 (R10). -/
  dinExtra   : Nat
  /-- DOUT_DEPTH - 1 (R10). -/
  doutExtra  : Nat
  /-- The engine's own room for output bytes not yet pushed, less 1 (R64, D38). -/
  aheadExtra : Nat

/-- CMD_DEPTH, 1 or more (R10). -/
def Params.cmdDepth (P : Params) : Nat := P.cmdExtra + 1

/-- DIN_DEPTH, 1 or more (R10). -/
def Params.dinDepth (P : Params) : Nat := P.dinExtra + 1

/-- DOUT_DEPTH, 1 or more (R10). -/
def Params.doutDepth (P : Params) : Nat := P.doutExtra + 1

/-- The engine's own room for output bytes not yet pushed, 1 or more (R64, D38). -/
def Params.aheadRoom (P : Params) : Nat := P.aheadExtra + 1

/-- The primitive of this hardware. DESIGN CHOICE of form, open in the spec (D37): notes/assumptions/2. -/
opaque Config.E : List Byte → Block → Block

/-- CMD_DEPTH less 1, open in the spec (D34): notes/assumptions/3. -/
opaque Config.cmdExtra : Nat

/-- DIN_DEPTH less 1, open in the spec (D34): notes/assumptions/3. -/
opaque Config.dinExtra : Nat

/-- DOUT_DEPTH less 1, open in the spec (D34): notes/assumptions/3. -/
opaque Config.doutExtra : Nat

/-- Room for bytes popped ahead of their pushes, less 1, open in the spec (D38): notes/assumptions/4. -/
opaque Config.aheadExtra : Nat

/-- The free value of the `n`-th CSR read made while BUSY = 1 (R65, U1): notes/assumptions/5. -/
opaque Config.draw : Nat → Word

/-- The parameters of this hardware. -/
def Config.params : Params where
  E          := Config.E
  cmdExtra   := Config.cmdExtra
  dinExtra   := Config.dinExtra
  doutExtra  := Config.doutExtra
  aheadExtra := Config.aheadExtra

end Sys2Proof
end

