-- ==== Sys2Proof/Machine/State.lean ====
section
/-! DEFINITION. The engine's state (spec/10_state.md R20 to R44), the reasons a step can stop, and the state after
reset (R44). -/

namespace Sys2Proof.Machine

/-- The values of the 2-bit MODE register (R26). -/
inductive Mode where
  | ctr
  | ofb
  | cfb
  /-- The block-aligned reset default, which the engine does not process (R26, R121). -/
  | blk
  deriving DecidableEq, Repr

/-- The values of the 2-bit KEYLEN register (R28). -/
inductive KeyLen where
  | noKey
  | key16
  | key24
  | key32
  deriving DecidableEq, Repr

/-- The result codes of STATUS.ERR (R151). Codes 9 to 15 are never written. -/
inductive ErrCode where
  | ok
  | illegalOp
  | reservedField
  | keyLength
  | ivLength
  | modeValue
  | notStreaming
  | noKey
  | noIv
  deriving DecidableEq, Repr

/-- The direction of a call: ENC for ENCRYPT, DEC for DECRYPT (R102). -/
inductive Direction where
  | enc
  | dec
  deriving DecidableEq, Repr

/-- A feedback state: REG, KS and the 4-bit CUR (R22, R23, R24). -/
structure FeedbackState where
  reg : Block
  ks  : Block
  cur : BitVec 4
  deriving DecidableEq, Repr

/-- The working feedback state of a call (R33, R34): FS itself when CB = 1, the working copy W when CB = 0. -/
inductive Work where
  | live
  | copy (w : FeedbackState)
  deriving DecidableEq, Repr

/-- What the command in progress does with its payload (R34, R57, R112, R131, R132). -/
inductive Task where
  /-- An accepted ENCRYPT or DECRYPT; `pending` are output bytes computed and not yet pushed (R56, R64). -/
  | process (dir : Direction) (work : Work) (pending : List Byte)
  /-- An accepted SETKEY; `got` are the key bytes popped so far (R131). -/
  | loadKey (got : List Byte)
  /-- An accepted SETIV; `got` are the IV bytes popped so far (R132). -/
  | loadIv (got : List Byte)
  /-- A rejected command, popping and discarding its payload before it reports `code` (R57, R112, R152). -/
  | drain (code : ErrCode)
  deriving DecidableEq, Repr

/-- The command-in-progress state, held while BUSY = 1 (R34). -/
structure Progress where
  /-- The current command word. -/
  word : Word
  /-- The count of input bytes still to take. -/
  left : Nat
  /-- The working state of the command. -/
  task : Task
  deriving DecidableEq, Repr

/-- Everything the spec gives the engine (R22 to R34, R50), as plain data. -/
structure State where
  /-- FS = (REG, KS, CUR) (R22, R23, R24). -/
  fs       : FeedbackState
  /-- MODE (R26). -/
  mode     : Mode
  /-- CB, the continuous buffer enable (R27). -/
  cb       : Bool
  /-- KEY, 32 bytes (R28). -/
  key      : Vector Byte 32
  /-- KEYLEN (R28). -/
  keyLen   : KeyLen
  /-- IV (R29). -/
  iv       : Block
  /-- IVV: an IV has been loaded (R29). -/
  ivv      : Bool
  /-- STATUS.ERR (R30). -/
  err      : ErrCode
  /-- STATUS.FAULT, sticky (R32). -/
  fault    : Bool
  /-- The command in progress, if any (R33, R34). STATUS.BUSY (R31) is `progress.isSome`. -/
  progress : Option Progress
  /-- The CMD queue, oldest word first (R50, R63). -/
  cmd      : List Word
  /-- The DIN queue, oldest byte first (R50, R53). -/
  din      : List Byte
  /-- The DOUT queue, oldest byte first (R50, R54). -/
  dout     : List Byte
  /-- The level on the RST port (R50, R170). -/
  rst      : Bool
  /-- The model's own counter of the CSR reads that drew a free value (R65; notes/assumptions/5). -/
  draws    : Nat
  deriving DecidableEq, Repr

/-- Why the engine stops. -/
inductive Fault where
  /-- The invariant violation CURSOR_RANGE (R155): `step` answers it for an engine whose FAULT bit is set, which
  takes no further step until hardware reset (R156, R157, 93 I1). Safe: the spec gives a faulted engine no step. -/
  | cursorRange
  deriving DecidableEq, Repr

/-- What the model refuses by name. -/
inductive Refusal where
  /-- An instruction that has no meaning yet. No arm of `exec` answers it. Safe. -/
  | notModelled (mnemonic : String)
  /-- An act of a second host on one engine (R179, 93 I2): answered by `hostAct`. Safe: the spec gives such a run
  no meaning. -/
  | secondHost
  deriving DecidableEq, Repr

/-- The machine right after hardware reset (R44, R170), with RST released. Every value is the spec's but `draws`,
the model's own counter (DESIGN CHOICE, notes/assumptions/5). -/
def State.reset : State where
  fs       := ⟨zeroBlock, zeroBlock, 0#4⟩
  mode     := .blk
  cb       := false
  key      := Vector.replicate 32 0#8
  keyLen   := .noKey
  iv       := zeroBlock
  ivv      := false
  err      := .ok
  fault    := false
  progress := none
  cmd      := []
  din      := []
  dout     := []
  rst      := false
  draws    := 0

end Sys2Proof.Machine
end

