-- ==== Sys2Proof/Machine/Flags.lean ====
section
/-! DEFINITION. The status register: result codes, the checks that give them, BUSY and FAULT
(spec/10_state.md R30 to R32, spec/60_exceptions.md R150 to R157). -/

namespace Sys2Proof.Machine

/-- The 4-bit code of a result (R151). -/
def ErrCode.code : ErrCode → BitVec 4
  | .ok => 0#4
  | .illegalOp => 1#4
  | .reservedField => 2#4
  | .keyLength => 3#4
  | .ivLength => 4#4
  | .modeValue => 5#4
  | .notStreaming => 6#4
  | .noKey => 7#4
  | .noIv => 8#4

/-- The 2-bit value of MODE (R26). -/
def Mode.bits : Mode → BitVec 2
  | .ctr => 0#2
  | .ofb => 1#2
  | .cfb => 2#2
  | .blk => 3#2

/-- The 2-bit value of KEYLEN (R28). -/
def KeyLen.bits : KeyLen → BitVec 2
  | .noKey => 0#2
  | .key16 => 1#2
  | .key24 => 2#2
  | .key32 => 3#2

/-- STATUS.BUSY: a command word has been taken and its command has not completed (R31). -/
def State.busy (s : State) : Bool := s.progress.isSome

/-- `status(code)`: writes STATUS.ERR and ends the command, which clears the command-in-progress state
(R13, R34, R150). -/
def status (code : ErrCode) (s : State) : State := { s with err := code, progress := none }

/-- `fault(reason)`: sets the sticky FAULT bit. The command in progress stays, so BUSY stays 1, and STATUS.ERR is
not written (R156). The engine stops: `step` answers `Fault.cursorRange` from then on (R157). -/
def raiseFault (s : State) : State := { s with fault := true }

/-- The checks of ENCRYPT and DECRYPT in order (R112, R153): NOT_STREAMING, then NO_KEY, then NO_IV. -/
def checkProcess (s : State) : ErrCode :=
  if s.mode = .blk then .notStreaming
  else if s.keyLen = .noKey then .noKey
  else if s.ivv = false then .noIv
  else .ok

/-- SETKEY's check (R131). -/
def checkKeyLength (n : Nat) : ErrCode := if n ∈ keyLengths then .ok else .keyLength

/-- SETIV's check (R132). -/
def checkIvLength (n : Nat) : ErrCode := if n = blockBytes then .ok else .ivLength

/-- The mode a SETMODE operand names; the value 3 names none that SETMODE accepts (R78, R133). -/
def streamingMode (m : BitVec 2) : Option Mode :=
  match m.toNat with
  | 0 => some .ctr
  | 1 => some .ofb
  | 2 => some .cfb
  | _ => none

end Sys2Proof.Machine
end

