-- ==== Sys2Proof/Machine/Operands.lean ====
section
/-! DEFINITION. Reading and forming operands: blocks as integers (spec/00_scope.md R12), bytes of a block, the key
in use (R28), the init state (R101), and the bytes a command takes from DIN (R53, R57). -/

namespace Sys2Proof.Machine

/-- `be(A)`: the block as an unsigned integer, byte 0 the most significant (R12). -/
def be (A : Block) : Nat := A.toList.foldl (fun v b => 256 * v + b.toNat) 0

/-- The first `n` of the bytes, byte i at index i, with zero bytes to the end: `bytes ++ 0^(n - length)` (R11). -/
def arrayOfBytes (n : Nat) (bytes : List Byte) : Vector Byte n :=
  ⟨((bytes ++ List.replicate n 0#8).take n).toArray, by simp⟩

/-- `be_bytes(v)`: the inverse of `be` below 2^(8B) (R12). -/
def beBytes (v : Nat) : Block :=
  arrayOfBytes blockBytes ((List.range blockBytes).map fun i => BitVec.ofNat 8 (v / 256 ^ (blockBytes - 1 - i)))

/-- The byte of a block at the cursor, `A[c]` (R102). -/
def byteAt (A : Block) (c : BitVec 4) : Byte := A[c.toNat]'c.isLt

/-- The block with the byte at the cursor replaced, `A[c] <- b` (R104). -/
def putByte (A : Block) (c : BitVec 4) (b : Byte) : Block := A.set c.toNat b c.isLt

/-- The block of 16 stream bytes, byte i of the stream at index i (R53). -/
def blockOfBytes (bytes : List Byte) : Block := arrayOfBytes blockBytes bytes

/-- KEY after SETKEY: `d ++ 0^(32 - n)` (R131). -/
def keyOfBytes (bytes : List Byte) : Vector Byte 32 := arrayOfBytes 32 bytes

/-- The number of key bytes in use (R28). -/
def KeyLen.bytes : KeyLen → Nat
  | .noKey => 0
  | .key16 => 16
  | .key24 => 24
  | .key32 => 32

/-- KEYLEN after SETKEY of a legal length n: `{16: 1, 24: 2, 32: 3}[n]` (R131). -/
def keyLenOf (n : Nat) : KeyLen :=
  if n = 16 then .key16 else if n = 24 then .key24 else .key32

/-- `key()`, the key in use (R28). Defined by the spec only when KEYLEN is not 0, and no byte step runs otherwise
(R122; notes/assumptions/9). -/
def keyInUse (s : State) : List Byte := s.key.toList.take s.keyLen.bytes

/-- `InitFS() = (IV, 0^B, 0)`, the same for every mode (R101). -/
def initFS (iv : Block) : FeedbackState := ⟨iv, zeroBlock, 0#4⟩

/-- The working feedback state a call reads: FS or W (R34). -/
def Work.read (work : Work) (fs : FeedbackState) : FeedbackState :=
  match work with
  | .live => fs
  | .copy w => w

/-- FS after the working feedback state becomes `S`: FS changes only when it is the working state (R112). -/
def Work.fsAfter (work : Work) (fs S : FeedbackState) : FeedbackState :=
  match work with
  | .live => S
  | .copy _ => fs

/-- The working state record after the working feedback state becomes `S` (R34). -/
def Work.after (work : Work) (S : FeedbackState) : Work :=
  match work with
  | .live => .live
  | .copy _ => .copy S

/-- The working feedback state at the start of a call: `if CB == 1: (REG, KS, CUR) else InitFS()` (R112). -/
def startWork (s : State) : Work := if s.cb then .live else .copy (initFS s.iv)

/-- The payload bytes present on DIN for a command that still needs `left` bytes, in pop order (R53). -/
def presentBytes (left : Nat) (s : State) : List Byte := s.din.take left

/-- DIN after those bytes are popped (R53, R57). -/
def popPresent (left : Nat) (s : State) : State := { s with din := s.din.drop left }

end Sys2Proof.Machine
end

