-- ==== Sys2Proof/Machine/Ops.lean ====
section
/-! DEFINITION. The shared operations: FsReset (spec/41_session.md R130), the byte step (spec/40_keystream.md R102),
the streams (spec/20_memory.md R53 to R59, R64), and how a command in progress goes on (R34, R112, R131, R132).
Taking the invariant fault is `raiseFault` of Flags.lean (R156); the engine has no other exception (R158). -/

namespace Sys2Proof.Machine

/-- `FsReset()`: FS <- InitFS(), from IV as it stands (R130). -/
def fsReset (s : State) : State := { s with fs := initFS s.iv }

/-- The writes of an accepted SETKEY to KEY and KEYLEN (R131). -/
def writeKey (d : List Byte) (s : State) : State :=
  { s with key := keyOfBytes d, keyLen := keyLenOf d.length }

/-- The writes of an accepted SETIV to IV and IVV (R132). -/
def writeIv (d : List Byte) (s : State) : State := { s with iv := blockOfBytes d, ivv := true }

/-- A new keystream block when a byte arrives with CUR = 0, the only call of E (R103). -/
def beginBlock (E : List Byte → Block → Block) (key : List Byte) (S : FeedbackState) : FeedbackState :=
  if S.cur = 0#4 then { S with ks := E key S.reg } else S

/-- The CFB feedback byte: the ciphertext byte replaces the used keystream byte (R104). -/
def keepByte (mode : Mode) (dir : Direction) (x y : Byte) (S : FeedbackState) : FeedbackState :=
  match mode with
  | .cfb =>
    match dir with
    | .enc => { S with ks := putByte S.ks S.cur y }
    | .dec => { S with ks := putByte S.ks S.cur x }
  | .ctr => S
  | .ofb => S
  | .blk => S

/-- REG at block completion (R105, R106, R107). R102's case has no branch for BLK, in which no byte step runs
(R121; notes/assumptions/9). -/
def nextReg (mode : Mode) (S : FeedbackState) : Block :=
  match mode with
  | .ctr => beBytes ((be S.reg + 1) % 2 ^ (8 * blockBytes))
  | .ofb => S.ks
  | .cfb => S.ks
  | .blk => S.reg

/-- The cursor after a byte is used, with block completion after byte B - 1 (R105 to R108). -/
def finishByte (mode : Mode) (S : FeedbackState) : FeedbackState :=
  if S.cur.toNat = blockBytes - 1 then ⟨nextReg mode S, zeroBlock, 0#4⟩ else { S with cur := S.cur + 1#4 }

/-- `ByteStep(S, dir, x) -> (S, y)` (R102), the whole per-byte semantics. `none` is the invariant violation
CURSOR_RANGE (R155), which a 4-bit CUR makes unreachable (notes/assumptions/11). -/
def byteStep (E : List Byte → Block → Block) (mode : Mode) (key : List Byte) (dir : Direction)
    (S : FeedbackState) (x : Byte) : Option (FeedbackState × Byte) :=
  if S.cur.toNat ≥ blockBytes then none
  else
    let S₁ := beginBlock E key S
    let y := x ^^^ byteAt S₁.ks S₁.cur
    some (finishByte mode (keepByte mode dir x y S₁), y)

/-- `DoutPush` of the pending output bytes in order, as far as DOUT has room (R13, R54, R56): what stays pending,
and DOUT. -/
def flush (depth : Nat) : List Byte → List Byte → List Byte × List Byte
  | [], dout => ([], dout)
  | y :: ys, dout => if dout.length < depth then flush depth ys (dout ++ [y]) else (y :: ys, dout)

/-- The engine may pop another input byte with this many output bytes pending: its own room and the queue depths
bound how far pops run ahead of pushes (R64, D28, D38; notes/assumptions/4). -/
def mayPop (P : Params) (pending : List Byte) : Bool :=
  decide (pending.length < P.aheadRoom) && decide (pending.length < P.dinDepth) &&
    decide (pending.length < P.doutDepth)

/-- What the loop of R112 moves: DIN, the count of bytes still to take, the working feedback state, the pending
output bytes and DOUT; `faulted` when a byte step was the invariant violation. -/
structure Lane where
  din     : List Byte
  left    : Nat
  fs      : FeedbackState
  pending : List Byte
  dout    : List Byte
  faulted : Bool
  deriving DecidableEq, Repr

/-- The loop `for i in 0..n-1: x <- DinPop(); (S, y) <- ByteStep(S, dir, x); DoutPush(y)` of R112, run until its
bytes are all taken or it must wait for DIN (R55) or for DOUT (R56). -/
def pump (P : Params) (mode : Mode) (key : List Byte) (dir : Direction) :
    List Byte → Nat → FeedbackState → List Byte → List Byte → Lane
  | [], left, S, pending, dout =>
    ⟨[], left, S, (flush P.doutDepth pending dout).1, (flush P.doutDepth pending dout).2, false⟩
  | x :: xs, 0, S, pending, dout =>
    ⟨x :: xs, 0, S, (flush P.doutDepth pending dout).1, (flush P.doutDepth pending dout).2, false⟩
  | x :: xs, left + 1, S, pending, dout =>
    let (pending, dout) := flush P.doutDepth pending dout
    if mayPop P pending then
      match byteStep P.E mode key dir S x with
      | none => ⟨xs, left, S, pending, dout, true⟩
      | some (S', y) => pump P mode key dir xs left S' (pending ++ [y]) dout
    else ⟨x :: xs, left + 1, S, pending, dout, false⟩

/-- An accepted ENCRYPT or DECRYPT goes on (R112): the loop, then the end of the command once every byte is taken
and every output byte pushed. With CB = 1 the loop's state is FS; with CB = 0 it is W, discarded at the end. -/
def advanceProcess (P : Params) (p : Progress) (dir : Direction) (work : Work) (pending : List Byte) (s : State) :
    State :=
  let r := pump P s.mode (keyInUse s) dir s.din p.left (work.read s.fs) pending s.dout
  let moved := { s with din := r.din, dout := r.dout, fs := work.fsAfter s.fs r.fs }
  let p' : Progress := { p with left := r.left, task := .process dir (work.after r.fs) r.pending }
  if r.faulted then raiseFault { moved with progress := some p' }
  else if r.left = 0 ∧ r.pending = [] then status .ok moved
  else { moved with progress := some p' }

/-- An accepted SETKEY goes on: it pops key bytes and, with the last, writes KEY and KEYLEN and resets FS (R131). -/
def advanceLoadKey (p : Progress) (got : List Byte) (s : State) : State :=
  let d := got ++ presentBytes p.left s
  let left := p.left - s.din.length
  if left = 0 then status .ok (fsReset (writeKey d (popPresent p.left s)))
  else { popPresent p.left s with progress := some { p with left := left, task := .loadKey d } }

/-- An accepted SETIV goes on: it pops IV bytes and, with the last, writes IV and IVV and resets FS (R132). -/
def advanceLoadIv (p : Progress) (got : List Byte) (s : State) : State :=
  let d := got ++ presentBytes p.left s
  let left := p.left - s.din.length
  if left = 0 then status .ok (fsReset (writeIv d (popPresent p.left s)))
  else { popPresent p.left s with progress := some { p with left := left, task := .loadIv d } }

/-- A rejected command goes on: `Drain(n)`, then its code; nothing else changes (R112, R152). -/
def advanceDrain (p : Progress) (code : ErrCode) (s : State) : State :=
  let left := p.left - s.din.length
  if left = 0 then status code (popPresent p.left s)
  else { popPresent p.left s with progress := some { p with left := left } }

/-- The command in progress `p` goes on until it completes or must wait (R34, R55, R56). -/
def advance (P : Params) (p : Progress) (s : State) : State :=
  match p.task with
  | .process dir work pending => advanceProcess P p dir work pending s
  | .loadKey got => advanceLoadKey p got s
  | .loadIv got => advanceLoadIv p got s
  | .drain code => advanceDrain p code s

/-- A command of word `w` with payload count `n` that its checks reject with `code`: it drains its payload and
reports the code (R57, R152). -/
def rejectCommand (P : Params) (w : Word) (n : Nat) (code : ErrCode) (s : State) : State :=
  advance P ⟨w, n, .drain code⟩ s

/-- `Process(dir, n)`, the body of ENCRYPT and DECRYPT (R112). -/
def processCommand (P : Params) (w : Word) (dir : Direction) (n : Nat) (s : State) : State :=
  match checkProcess s with
  | .ok => advance P ⟨w, n, .process dir (startWork s) []⟩ s
  | code => rejectCommand P w n code s

/-- A word with a defined opcode that R77's tests 2 to 4 reject: RESERVED_FIELD, popping LEN bytes if its opcode is
data-bearing (R57, R58, R73, R152). -/
def rejectReservedField (P : Params) (w : Word) (s : State) : State :=
  rejectCommand P w (if dataBearing (opField w) then (lenField w).toNat else 0) .reservedField s

/-- The next command word of CMD, and the state with it taken (R63). -/
def takeWord (s : State) : Option (Word × State) :=
  match s.cmd with
  | [] => none
  | w :: ws => some (w, { s with cmd := ws })

end Sys2Proof.Machine
end

