-- ==== Sys2Proof/Machine/Keystream.lean ====
section
/-! DEFINITION. ENCRYPT and DECRYPT (spec/40_keystream.md R112 to R114). -/

namespace Sys2Proof.Machine

/-- ENCRYPT n: `Process(ENC, n)` (R113). -/
def execEncrypt (n : Nat) (s : State) : Host.Outcome State Fault Refusal :=
  .next (processCommand Config.params (encode (.encrypt n)) .enc n s)

/-- DECRYPT n: `Process(DEC, n)` (R114). -/
def execDecrypt (n : Nat) (s : State) : Host.Outcome State Fault Refusal :=
  .next (processCommand Config.params (encode (.decrypt n)) .dec n s)

end Sys2Proof.Machine
end

