-- ==== Sys2Proof/Machine/Reserved.lean ====
section
/-! DEFINITION. The reserved opcodes (spec/30_encoding.md R76): ILLEGAL_OP, no byte popped, nothing else changed. -/

namespace Sys2Proof.Machine

/-- A word with opcode 0x0 (R76). -/
def execReservedZero (_other : BitVec 28) (s : State) : Host.Outcome State Fault Refusal :=
  .next (status .illegalOp s)

/-- A word with opcode 0xA or 0xB (R76). -/
def execReservedAB (_op : BitVec 4) (_other : BitVec 28) (s : State) : Host.Outcome State Fault Refusal :=
  .next (status .illegalOp s)

/-- A word with opcode 0xC to 0xF (R76). -/
def execReservedCF (_op : BitVec 4) (_other : BitVec 28) (s : State) : Host.Outcome State Fault Refusal :=
  .next (status .illegalOp s)

end Sys2Proof.Machine
end

