-- ==== Sys2Proof/Machine/Session.lean ====
section
/-! DEFINITION. The session controls (spec/41_session.md R130 to R137). -/

namespace Sys2Proof.Machine

/-- SETKEY n (R131). The length is in the word, so the check is made when the word is taken; the payload is popped
either way (R57; notes/assumptions/6). -/
def execSetkey (n : Nat) (s : State) : Host.Outcome State Fault Refusal :=
  match checkKeyLength n with
  | .ok => .next (advance Config.params ⟨encode (.setkey n), n, .loadKey []⟩ s)
  | code => .next (rejectCommand Config.params (encode (.setkey n)) n code s)

/-- SETIV n (R132); as SETKEY, the payload is popped either way. -/
def execSetiv (n : Nat) (s : State) : Host.Outcome State Fault Refusal :=
  match checkIvLength n with
  | .ok => .next (advance Config.params ⟨encode (.setiv n), n, .loadIv []⟩ s)
  | code => .next (rejectCommand Config.params (encode (.setiv n)) n code s)

/-- SETMODE m (R133): MODE <- m and FsReset for CTR, OFB and CFB, MODE_VALUE for 3. -/
def execSetmode (m : BitVec 2) (s : State) : Host.Outcome State Fault Refusal :=
  match streamingMode m with
  | some mode => .next (status .ok (fsReset { s with mode := mode }))
  | none => .next (status .modeValue s)

/-- CBON: `CB <- 1; status(OK)` (R134). -/
def execCbon (s : State) : Host.Outcome State Fault Refusal :=
  .next (status .ok { s with cb := true })

/-- CBOFF: `CB <- 0; status(OK)` (R135). -/
def execCboff (s : State) : Host.Outcome State Fault Refusal :=
  .next (status .ok { s with cb := false })

/-- RESETFS: `FsReset(); status(OK)` (R136). -/
def execResetfs (s : State) : Host.Outcome State Fault Refusal :=
  .next (status .ok (fsReset s))

/-- SETBLKLEN v: `status(OK)`, for every v (R137). -/
def execSetblklen (_v : Nat) (s : State) : Host.Outcome State Fault Refusal :=
  .next (status .ok s)

end Sys2Proof.Machine
end

