-- ==== Sys2Proof/Machine/Dispatch.lean ====
section
/-! DEFINITION. One arm per command: its meaning. -/

namespace Sys2Proof.Machine

def exec (i : Instr) (s : State) : Host.Outcome State Fault Refusal :=
  match i with
  | .encrypt n => Sys2Proof.Machine.execEncrypt n s
  | .decrypt n => Sys2Proof.Machine.execDecrypt n s
  | .setkey n => Sys2Proof.Machine.execSetkey n s
  | .setiv n => Sys2Proof.Machine.execSetiv n s
  | .setmode m => Sys2Proof.Machine.execSetmode m s
  | .cbon => Sys2Proof.Machine.execCbon s
  | .cboff => Sys2Proof.Machine.execCboff s
  | .resetfs => Sys2Proof.Machine.execResetfs s
  | .setblklen v => Sys2Proof.Machine.execSetblklen v s
  | .reservedZero other => Sys2Proof.Machine.execReservedZero other s
  | .reservedAB op other => Sys2Proof.Machine.execReservedAB op other s
  | .reservedCF op other => Sys2Proof.Machine.execReservedCF op other s

end Sys2Proof.Machine
end

