-- ==== Sys2Proof/Machine/Step.lean ====
section
/-! DEFINITION. One step of the engine (spec/20_memory.md R63, spec/70_reset_and_hazards.md R170). -/

namespace Sys2Proof.Machine

/-- The engine runs the command word `w` it has taken: the command it decodes to, or a RESERVED_FIELD rejection
(R77). -/
def runWord (w : Word) (s : State) : Host.Outcome State Fault Refusal :=
  match decode w with
  | .command i => exec i s
  | .reservedField w => .next (rejectReservedField Config.params w s)

/-- The engine's next step. With RST asserted it stays at its reset state (R170); faulted, it has no step (R156); a
command in progress goes on (R34); otherwise the next command word is taken and run, or waited for (R63, R170). -/
def step (s : State) : Host.Outcome State Fault Refusal :=
  if s.rst then .next s
  else if s.fault then .fault .cursorRange
  else
    match s.progress with
    | some p => .next (advance Config.params p s)
    | none =>
      match takeWord s with
      | none => .next s
      | some (w, s') => runWord w s'

/-- `s` with the table word `w` where the next step takes its command: at the head of CMD, the engine idle, not
faulted and out of reset (notes/assumptions/12). -/
def State.withFetchWord (s : State) (nbits w : Nat) : State :=
  { s with
    rst      := false
    fault    := false
    progress := none
    cmd      := BitVec.ofNat 32 (w % 2 ^ nbits) :: s.cmd.tail }

end Sys2Proof.Machine
end

