-- ==== Sys2Proof/Machine/HostPort.lean ====
section
/-! DEFINITION. What the host does to the engine, between steps (spec/20_memory.md R50 to R56, R65): it writes command
words, supplies and takes bytes, reads CSRs (spec/10_state.md R36 to R43) and drives RST (R170, R171). -/

namespace Sys2Proof.Machine

/-- CTRL (R36): IVV, KEYLEN, CB, MODE from bit 5 down. -/
def csrCtrl (s : State) : Word :=
  0#26 ++ BitVec.ofBool s.ivv ++ s.keyLen.bits ++ BitVec.ofBool s.cb ++ s.mode.bits

/-- STATUS (R37): FAULT, BUSY, ERR from bit 5 down. -/
def csrStatus (s : State) : Word :=
  0#26 ++ BitVec.ofBool s.fault ++ BitVec.ofBool s.busy ++ s.err.code

/-- CURSOR (R38). -/
def csrCursor (s : State) : Word := 0#28 ++ s.fs.cur

/-- BLKSZ (R39): always 0x00000010. -/
def csrBlksz : Word := BitVec.ofNat 32 blockBytes

/-- Word k of a block field: byte 4k in bits 31:24 down to byte 4k+3 in bits 7:0 (R52). -/
def blockWord (A : Block) (k : Nat) : Word :=
  A.toList.getD (4 * k) 0#8 ++ A.toList.getD (4 * k + 1) 0#8 ++ A.toList.getD (4 * k + 2) 0#8
    ++ A.toList.getD (4 * k + 3) 0#8

/-- The CSR map by word index, byte address 4 * index (R36 to R43, R51). -/
def csrWord (s : State) (index : BitVec 6) : Word :=
  if index.toNat = 0 then csrCtrl s
  else if index.toNat = 1 then csrStatus s
  else if index.toNat = 2 then csrCursor s
  else if index.toNat = 3 then csrBlksz
  else if index.toNat < 8 then blockWord s.fs.reg (index.toNat - 4)
  else if index.toNat < 12 then blockWord s.fs.ks (index.toNat - 8)
  else if index.toNat < 16 then blockWord s.iv (index.toNat - 12)
  else 0#32

/-- A read while BUSY = 1, from the drawn word: BUSY and FAULT of STATUS and all of BLKSZ are right, every other bit
is the draw's (R65, R180; notes/assumptions/5, 17). -/
def busyWord (s : State) (index : BitVec 6) (draw : Word) : Word :=
  if index.toNat = 1 then
    draw.extractLsb' 6 26 ++ BitVec.ofBool s.fault ++ BitVec.ofBool s.busy ++ draw.extractLsb' 0 4
  else if index.toNat = 3 then csrBlksz
  else draw

/-- A CSR read: the word, and the state after it. It changes nothing of the engine (R43, R51); while BUSY = 1 it uses
up one draw. -/
def csrRead (index : BitVec 6) (s : State) : Word × State :=
  if s.busy then (busyWord s index (Config.draw s.draws), { s with draws := s.draws + 1 })
  else (csrWord s index, s)

/-- The host writes a command word: CMD takes it if it has room, else the host must wait (R10, R63). -/
def writeCmd (P : Params) (w : Word) (s : State) : State :=
  if s.cmd.length < P.cmdDepth then { s with cmd := s.cmd ++ [w] } else s

/-- The host supplies an input byte: DIN takes it if it has room, else the host must wait (R10, R53). -/
def supplyByte (P : Params) (b : Byte) (s : State) : State :=
  if s.din.length < P.dinDepth then { s with din := s.din ++ [b] } else s

/-- The host takes the oldest output byte, if there is one (R54). -/
def takeByte (s : State) : Option (Byte × State) :=
  match s.dout with
  | [] => none
  | y :: ys => some (y, { s with dout := ys })

/-- Hardware reset: every element at its reset value, the queues empty, the command in progress abandoned with no
STATUS.ERR write (R44, R170, R171). The model's own draw counter goes on, so that draws stay fresh. -/
def hardReset (s : State) : State := { State.reset with draws := s.draws }

/-- What the host may do. -/
inductive HostAction where
  | writeCmd (w : Word)
  | supplyByte (b : Byte)
  | takeByte
  | readCsr (index : BitVec 6)
  | assertRst
  | releaseRst
  deriving DecidableEq, Repr

/-- Who acts: the engine's one host, or a second one (R5, R179). -/
inductive HostId where
  | owner
  | second
  deriving DecidableEq, Repr

/-- The state after an act of the one host. While RST is asserted the queues stay empty, so only a CSR read and the
release of RST do anything (R170; notes/assumptions/13). -/
def ownerAct (P : Params) (a : HostAction) (s : State) : State :=
  match a with
  | .writeCmd w => if s.rst then s else writeCmd P w s
  | .supplyByte b => if s.rst then s else supplyByte P b s
  | .takeByte =>
    match takeByte s with
    | none => s
    | some (_, s') => s'
  | .readCsr index => (csrRead index s).2
  | .assertRst => { hardReset s with rst := true }
  | .releaseRst => if s.rst then hardReset s else s

/-- An act of a host on the engine. A second host is refused (R179, 93 I2). -/
def hostAct (who : HostId) (a : HostAction) (s : State) : Host.Outcome State Fault Refusal :=
  match who with
  | .owner => .next (ownerAct Config.params a s)
  | .second => .refused .secondHost

end Sys2Proof.Machine
end

