-- ==== Sys2Proof/Safety.lean ====
section
/-! DEFINITION. The terms in which statements about the engine are made: when it is ready for a command, what a
sequence of bytes computes, the invariant of its states, and runs of several commands. -/

namespace Sys2Proof.Machine

/-- The engine is out of reset, not faulted, and no command is in progress: the next step takes a command word. -/
abbrev State.Idle (s : State) : Prop := s.rst = false ∧ s.fault = false ∧ s.progress = none

/-- ENCRYPT and DECRYPT pass their checks: a streaming mode, a key and an IV (R121, R122, R173). -/
abbrev State.Ready (s : State) : Prop := s.mode ≠ .blk ∧ s.keyLen ≠ .noKey ∧ s.ivv = true

/-- DOUT has room for `n` more bytes (R56). -/
abbrev State.RoomFor (s : State) (n : Nat) : Prop := s.dout.length + n ≤ Config.params.doutDepth

/-- The left fold of ByteStep over input bytes, with the output bytes in order (R102, R116). -/
def byteFold (E : List Byte → Block → Block) (mode : Mode) (key : List Byte) (dir : Direction) :
    FeedbackState → List Byte → Option (FeedbackState × List Byte)
  | S, [] => some (S, [])
  | S, x :: xs =>
    match byteStep E mode key dir S x with
    | none => none
    | some (S₁, y) =>
      match byteFold E mode key dir S₁ xs with
      | none => none
      | some (S₂, ys) => some (S₂, y :: ys)

/-- The feedback state a call starts from: FS with CB = 1, InitFS() with CB = 0 (R112). -/
def callStart (s : State) : FeedbackState := if s.cb then s.fs else initFS s.iv

/-- The command of a call in a direction: ENCRYPT n or DECRYPT n. -/
def callOf (dir : Direction) (n : Nat) : Instr :=
  match dir with
  | .enc => .encrypt n
  | .dec => .decrypt n

/-! The block-wise algorithm of R120, for one run of bytes that stays inside one keystream block. -/

/-- The block whose bytes the run uses: a pending one, or a new one E(key(), REG) (R120 steps 1 to 3). -/
def segmentBlock (E : List Byte → Block → Block) (key : List Byte) (S : FeedbackState) : Block :=
  if S.cur = 0#4 then E key S.reg else S.ks

/-- The output bytes of the run: the XOR with the block's bytes from the cursor on. -/
def segmentOut (K : Block) (c : Nat) (xs : List Byte) : List Byte :=
  List.zipWith (fun x k => x ^^^ k) xs (K.toList.drop c)

/-- The block buffer after the run: unchanged in CTR and OFB, the ciphertext bytes in place in CFB (R104). -/
def segmentKept (mode : Mode) (dir : Direction) (K : Block) (c : Nat) (xs ys : List Byte) : Block :=
  match mode with
  | .cfb =>
    match dir with
    | .enc => blockOfBytes (K.toList.take c ++ ys ++ K.toList.drop (c + xs.length))
    | .dec => blockOfBytes (K.toList.take c ++ xs ++ K.toList.drop (c + xs.length))
  | .ctr => K
  | .ofb => K
  | .blk => K

/-- The feedback state after the run: REG advances only if the block is used up (R120). -/
def segmentState (mode : Mode) (S : FeedbackState) (kept : Block) (used : Nat) : FeedbackState :=
  if S.cur.toNat + used = blockBytes then ⟨nextReg mode { S with ks := kept }, zeroBlock, 0#4⟩
  else ⟨S.reg, kept, BitVec.ofNat 4 (S.cur.toNat + used)⟩

/-- The block-wise algorithm (R120): first the residual of a pending block, then whole blocks, then a partial one.
Each round takes the bytes that the current block still serves; `fuel` bounds the rounds. -/
def blockwise (E : List Byte → Block → Block) (mode : Mode) (key : List Byte) (dir : Direction) :
    Nat → FeedbackState → List Byte → FeedbackState × List Byte
  | 0, S, _ => (S, [])
  | fuel + 1, S, xs =>
    if xs = [] then (S, [])
    else
      let seg := xs.take (blockBytes - S.cur.toNat)
      let K := segmentBlock E key S
      let ys := segmentOut K S.cur.toNat seg
      let S₁ := segmentState mode S (segmentKept mode dir K S.cur.toNat seg ys) seg.length
      let rest := blockwise E mode key dir fuel S₁ (xs.drop seg.length)
      (rest.1, ys ++ rest.2)

/-! Runs. -/

/-- Several commands, each with its own payload supplied on an empty DIN. -/
def runSupplied : List (Instr × List Byte) → State → Option State
  | [], s => some s
  | (i, payload) :: rest, s =>
    match exec i { s with din := payload } with
    | .next t => if t.progress = none then runSupplied rest t else none
    | .fault _ => none
    | .refused _ => none

/-- A host that serves the engine byte by byte: it supplies a byte, lets the engine step, and takes the output byte. -/
def serve : List Byte → State → Option (List Byte × State)
  | [], s => some ([], s)
  | b :: bs, s =>
    match step (supplyByte Config.params b s) with
    | .next t =>
      match takeByte t with
      | some (y, u) =>
        match serve bs u with
        | some (ys, v) => some (y :: ys, v)
        | none => none
      | none => none
    | .fault _ => none
    | .refused _ => none

/-- A host that takes `n` bytes from DOUT, one after the other (R54). -/
def takeBytes : Nat → State → Option (List Byte × State)
  | 0, s => some ([], s)
  | n + 1, s =>
    match takeByte s with
    | none => none
    | some (y, t) =>
      match takeBytes n t with
      | none => none
      | some (ys, u) => some (y :: ys, u)

/-- The call `p`, with direction, working state and pending output bytes, goes on in `s` and leaves `t`. It pops the
first bytes of DIN, as many as `more` is long, `more` being their output bytes (R64). Of the pending bytes and `more`
behind them, in order, the first go to DOUT as far as it has room and the others stay pending (R54, R56). The call ends
with OK if every byte is taken and pushed, and else waits: every byte is taken, DIN is empty (R55), or there is no room
to run ahead (`mayPop`, notes/assumptions/4). -/
def CallGoesOn (s : State) (p : Progress) (dir : Direction) (work : Work) (pending : List Byte) (t : State) : Prop :=
  ∃ S' more,
    byteFold Config.E s.mode (keyInUse s) dir (work.read s.fs) (s.din.take more.length) = some (S', more) ∧
    more.length ≤ p.left ∧
    (more.length = p.left ∨ s.din.length = more.length ∨
      mayPop Config.params ((pending ++ more).drop (Config.params.doutDepth - s.dout.length)) = false) ∧
    t = { s with
      din := s.din.drop more.length
      dout := s.dout ++ (pending ++ more).take (Config.params.doutDepth - s.dout.length)
      fs := work.fsAfter s.fs S'
      err := if more.length = p.left ∧ s.RoomFor (pending ++ more).length then .ok else s.err
      progress :=
        if more.length = p.left ∧ s.RoomFor (pending ++ more).length then none
        else some ⟨p.word, p.left - more.length, .process dir (work.after S')
          ((pending ++ more).drop (Config.params.doutDepth - s.dout.length))⟩ }

/-- Several calls, each served byte by byte with its own payload; the output bytes are those of all of them in
order. -/
def runServed : List (Instr × List Byte) → State → Option (List Byte × State)
  | [], s => some ([], s)
  | (i, payload) :: rest, s =>
    match exec i s with
    | .next t =>
      match serve payload t with
      | some (ys, u) =>
        match runServed rest u with
        | some (zs, v) => some (ys ++ zs, v)
        | none => none
      | none => none
    | .fault _ => none
    | .refused _ => none

/-- A message's pieces as calls in one direction. -/
def callsOf (dir : Direction) (pieces : List (List Byte)) : List (Instr × List Byte) :=
  pieces.map fun piece => (callOf dir piece.length, piece)

/-- The states the engine and its one host reach from reset. -/
inductive Reachable : State → Prop where
  | reset : Reachable State.reset
  | step {s t : State} : Reachable s → step s = .next t → Reachable t
  | host {s t : State} {a : HostAction} : Reachable s → hostAct .owner a s = .next t → Reachable t

/-! The invariant. -/

/-- The FS invariant (R25): no pending block means a cleared buffer. CUR is in 0..B-1 by its width. -/
abbrev FeedbackState.Ok (S : FeedbackState) : Prop := S.cur = 0#4 → S.ks = zeroBlock

/-- What a command in progress satisfies while it waits (R34): it still needs a byte or has one to push; its word is
the word of the command whose task it has; the task agrees with CB and the session's configuration; the pending
output bytes respect the bounds on running ahead (R64). -/
def Progress.Ok (s : State) (p : Progress) : Prop :=
  match p.task with
  | .process dir work pending =>
    (∃ n, n < lenLimit ∧ p.word = encode (callOf dir n) ∧ p.left + pending.length ≤ n) ∧
    s.Ready ∧
    (match work with
      | .live => s.cb = true
      | .copy w => s.cb = false ∧ w.Ok) ∧
    pending.length ≤ Config.params.aheadRoom ∧ pending.length ≤ Config.params.dinDepth ∧
    pending.length ≤ Config.params.doutDepth ∧
    (p.left = 0 → pending ≠ [])
  | .loadKey got => ∃ n, n ∈ keyLengths ∧ p.word = encode (.setkey n) ∧ got.length + p.left = n ∧ 0 < p.left
  | .loadIv got => p.word = encode (.setiv blockBytes) ∧ got.length + p.left = blockBytes ∧ 0 < p.left
  | .drain code =>
    code ≠ .ok ∧ dataBearing (opField p.word) = true ∧ p.left ≤ (lenField p.word).toNat ∧ 0 < p.left

/-- The invariant of the engine's states: the FS invariant (R25), zero KEY bytes beyond the key in use (R28), a zero
IV until one is loaded (R29), no fault (R154), queues within their depths (R10), a command in progress that is in
order (R34), and the reset state while RST is asserted (R170). -/
structure State.Inv (s : State) : Prop where
  fsOk       : s.fs.Ok
  keyTail    : ∀ k, s.keyLen.bytes ≤ k → s.key.toList.getD k 0#8 = 0#8
  ivUnset    : s.ivv = false → s.iv = zeroBlock
  noFault    : s.fault = false
  cmdBound   : s.cmd.length ≤ Config.params.cmdDepth
  dinBound   : s.din.length ≤ Config.params.dinDepth
  doutBound  : s.dout.length ≤ Config.params.doutDepth
  progressOk : ∀ p, s.progress = some p → p.Ok s
  inReset    : s.rst = true → s = { State.reset with rst := true, draws := s.draws }

end Sys2Proof.Machine
end

