-- ==== Sys2Proof/Certificates/Slice0/Obligations.lean ====
section
/-! DEFINITION. The statements for the provers. -/

open Sys2Proof Sys2Proof.Machine

/-! ## Encoding -/

/-- Decoding an encoded well-formed command gives it back, every operand at every value its field admits (R71, R75,
R76, R77). -/
def Obligations.DecodeOfEncodeIsTheCommand : Prop :=
  ∀ i : Instr, i.wellFormed = true → decode (encode i) = .command i

/-- A word that decodes to a command is that command's only word, and the command is well-formed (R71, R72, R77). -/
def Obligations.EncodeOfDecodeIsTheWord : Prop :=
  ∀ (w : Word) (i : Instr), decode w = .command i → encode i = w ∧ i.wellFormed = true

/-- R79: a word is a row's command exactly when `(w & mask) == match`, and a word that matches no row is rejected with
RESERVED_FIELD. The rows are R79's and the reserved rows of the opcode table. -/
def Obligations.MatchMaskTableNamesTheCommand : Prop :=
  ∀ w : Word,
    (∀ row ∈ opcodeRows,
      (w &&& row.mask = row.pattern ↔ ∃ i, decode w = .command i ∧ i.mnemonic = row.mnemonic)) ∧
    ((∀ row ∈ opcodeRows, w &&& row.mask ≠ row.pattern) → decode w = .reservedField w)

/-- R77: the tests in order, the first that holds deciding: ILLEGAL_OP, then RESERVED_FIELD, then the command that OP
names (R75). -/
def Obligations.WordTestsInOrder : Prop :=
  ∀ w : Word,
    (opField w = 0x0#4 ∨ 0xA ≤ (opField w).toNat →
      ∃ i, decode w = .command i ∧ ∀ s : State, exec i s = .next (status .illegalOp s)) ∧
    (¬(opField w = 0x0#4 ∨ 0xA ≤ (opField w).toNat) →
      ((rsvField w ≠ 0#2 ∨ (modeField w ≠ 0#2 ∧ opField w ≠ 0x5#4) ∨
          (lenField w ≠ 0#24 ∧ (opField w = 0x5#4 ∨ opField w = 0x6#4 ∨ opField w = 0x7#4 ∨ opField w = 0x8#4))) →
        decode w = .reservedField w ∧
          ∀ s : State, runWord w s = .next (rejectReservedField Config.params w s)) ∧
      (¬(rsvField w ≠ 0#2 ∨ (modeField w ≠ 0#2 ∧ opField w ≠ 0x5#4) ∨
          (lenField w ≠ 0#24 ∧ (opField w = 0x5#4 ∨ opField w = 0x6#4 ∨ opField w = 0x7#4 ∨ opField w = 0x8#4))) →
        (opField w = 0x1#4 → decode w = .command (.encrypt (lenField w).toNat)) ∧
        (opField w = 0x2#4 → decode w = .command (.decrypt (lenField w).toNat)) ∧
        (opField w = 0x3#4 → decode w = .command (.setkey (lenField w).toNat)) ∧
        (opField w = 0x4#4 → decode w = .command (.setiv (lenField w).toNat)) ∧
        (opField w = 0x5#4 → decode w = .command (.setmode (modeField w))) ∧
        (opField w = 0x6#4 → decode w = .command .cbon) ∧
        (opField w = 0x7#4 → decode w = .command .cboff) ∧
        (opField w = 0x8#4 → decode w = .command .resetfs) ∧
        (opField w = 0x9#4 → decode w = .command (.setblklen (lenField w).toNat))))

/-- R83's table, both ways. -/
def Obligations.EncodingExamplesOfTheManual : Prop :=
  ∀ e ∈ [(Instr.encrypt 5, 0x00000501#32), (.encrypt 17, 0x00001101#32), (.decrypt 16, 0x00001002#32),
      (.setkey 16, 0x00001003#32), (.setkey 32, 0x00002003#32), (.setiv 16, 0x00001004#32),
      (.setmode 0#2, 0x00000005#32), (.setmode 1#2, 0x00000015#32), (.setmode 2#2, 0x00000025#32),
      (.cbon, 0x00000006#32), (.cboff, 0x00000007#32), (.resetfs, 0x00000008#32), (.setblklen 192, 0x0000C009#32),
      (.encrypt 16777215, 0xFFFFFF01#32)],
    encode e.1 = e.2 ∧ decode e.2 = .command e.1

/-! ## The step -/

/-- When the word at the head of CMD decodes to a command, the idle engine's step takes the word and runs that command
(R63, R77). -/
def Obligations.StepRunsTheDecodedCommand : Prop :=
  ∀ (s : State) (w : Word) (ws : List Word) (i : Instr), s.Idle → s.cmd = w :: ws → decode w = .command i →
    step s = exec i { s with cmd := ws }

/-- A word with a defined opcode and a nonzero reserved field is taken and rejected with RESERVED_FIELD; a
data-bearing one pops and discards its LEN bytes, any other pops none; nothing else changes (R57, R58, R73, R152).
With fewer bytes on DIN than it pops it takes those and waits, a rejected command in progress with the rest still to
take (R34, R55). A rejected command in progress, with whatever code, does the same with the bytes that come, until the
step that takes the last byte it pops, and no byte more, writes its code.

That a step takes all the bytes there are (`din := []`) rests on the model's choice of log entry 1. -/
def Obligations.ReservedFieldWordIsRejected : Prop :=
  (∀ (s : State) (w : Word) (ws : List Word) (n : Nat), s.Idle → s.cmd = w :: ws → decode w = .reservedField w →
    n = (if dataBearing (opField w) then (lenField w).toNat else 0) →
    (n ≤ s.din.length → step s = .next { s with
      cmd := ws
      din := s.din.drop n
      err := .reservedField }) ∧
    (s.din.length < n → step s = .next { s with
      cmd := ws
      din := []
      progress := some ⟨w, n - s.din.length, .drain .reservedField⟩ })) ∧
  (∀ (s : State) (w : Word) (n : Nat) (code : ErrCode), s.rst = false → s.fault = false →
    s.progress = some ⟨w, n, .drain code⟩ →
    (n ≤ s.din.length → step s = .next { s with
      din := s.din.drop n
      err := code
      progress := none }) ∧
    (s.din.length < n → step s = .next { s with
      din := []
      progress := some ⟨w, n - s.din.length, .drain code⟩ }))

/-- The idle engine with no command word waits and changes nothing (R170: it "starts by waiting for a command
word"). -/
def Obligations.IdleEngineWaitsForACommandWord : Prop :=
  ∀ s : State, s.Idle → s.cmd = [] → step s = .next s

/-! ## Reset -/

/-- R44: every element's reset value; FS at reset is the init state of the reset IV. -/
def Obligations.ResetValues : Prop :=
  State.reset.fs = ⟨zeroBlock, zeroBlock, 0#4⟩ ∧ State.reset.mode = .blk ∧ State.reset.mode.bits = 3#2 ∧
  State.reset.cb = false ∧ State.reset.key.toList = List.replicate 32 0#8 ∧ State.reset.keyLen.bits = 0#2 ∧
  State.reset.iv = zeroBlock ∧ State.reset.ivv = false ∧ State.reset.err.code = 0#4 ∧ State.reset.busy = false ∧
  State.reset.fault = false ∧ State.reset.progress = none ∧ State.reset.cmd = [] ∧ State.reset.din = [] ∧
  State.reset.dout = [] ∧ State.reset.fs = initFS State.reset.iv ∧ fsReset State.reset = State.reset

/-- R172: what every CSR reads immediately after reset. -/
def Obligations.ResetCsrReads : Prop :=
  ∀ index : BitVec 6,
    (csrRead index State.reset).1 = if index = 0#6 then 0x00000003#32 else if index = 3#6 then 0x00000010#32 else 0#32

/-- From any state, faulted, waiting or in reset, asserting RST gives every element its reset value, empties the
queues and abandons the command in progress; while RST stays asserted neither a step nor a host act changes that;
after release the engine waits for a command word and takes the next one the host writes (R44, R170, R171). That the
model's own draw counter goes on (log entry 5) and that a host's write during reset is lost (log entry 13) are the
model's choices. -/
def Obligations.HardwareResetFromAnyState : Prop :=
  ∀ s : State,
    hostAct .owner .assertRst s = .next { State.reset with rst := true, draws := s.draws } ∧
    step { State.reset with rst := true, draws := s.draws } =
      .next { State.reset with rst := true, draws := s.draws } ∧
    (∀ a : HostAction, a ≠ .releaseRst → hostAct .owner a { State.reset with rst := true, draws := s.draws } =
      .next { State.reset with rst := true, draws := s.draws }) ∧
    hostAct .owner .releaseRst { State.reset with rst := true, draws := s.draws } =
      .next { State.reset with draws := s.draws } ∧
    step { State.reset with draws := s.draws } = .next { State.reset with draws := s.draws } ∧
    ∀ w : Word, ∃ t, hostAct .owner (.writeCmd w) { State.reset with draws := s.draws } = .next t ∧
      step t = runWord w { State.reset with draws := s.draws }

/-! ## Whole-machine rules -/

/-- The state after reset meets the invariant. -/
def Obligations.ResetMeetsTheInvariant : Prop := State.reset.Inv

/-- Every step of the engine keeps the invariant (R10, R25, R28, R29, R34, R154). -/
def Obligations.StepKeepsTheInvariant : Prop :=
  ∀ s t : State, s.Inv → step s = .next t → t.Inv

/-- Every act of the host keeps the invariant. -/
def Obligations.HostActKeepsTheInvariant : Prop :=
  ∀ (a : HostAction) (s t : State), s.Inv → hostAct .owner a s = .next t → t.Inv

/-- No state that the engine and its host reach from reset is faulted, and its step always gives a next state: no
command ends a run (R154, R155). -/
def Obligations.ReachableEngineNeverStops : Prop :=
  ∀ s : State, Reachable s → s.fault = false ∧ ∃ t, step s = .next t

/-- R157: FAULT is sticky. A faulted engine takes no step and no command; no host act but hardware reset clears the
bit; no command clears it. -/
def Obligations.FaultIsStickyUntilReset : Prop :=
  (∀ s : State, s.rst = false → s.fault = true →
    step s = .fault .cursorRange ∧
    (∀ a : HostAction, a ≠ .assertRst → ∃ t, hostAct .owner a s = .next t ∧ t.fault = true ∧ t.rst = false) ∧
    ∃ t, hostAct .owner .assertRst s = .next t ∧ t.fault = false) ∧
  (∀ (i : Instr) (s t : State), exec i s = .next t → t.fault = s.fault)

/-- The action of an invariant violation (R156): FAULT is set, BUSY keeps its value, STATUS.ERR and everything else stay,
and the engine takes no further step. -/
def Obligations.RaisingTheFaultStopsTheEngine : Prop :=
  ∀ s : State, s.rst = false →
    raiseFault s = { s with fault := true } ∧ (raiseFault s).busy = s.busy ∧
    step (raiseFault s) = .fault .cursorRange ∧
    (csrRead 1#6 (raiseFault s)).1.extractLsb' 5 1 = 1#1 ∧
    (csrRead 1#6 (raiseFault s)).1.extractLsb' 4 1 = BitVec.ofBool s.busy

/-- R152: a rejected command, and a word rejected with RESERVED_FIELD, changes no state except STATUS.ERR and the payload
bytes it pops; it pushes no DOUT byte, and its result does not depend on E. -/
def Obligations.RejectionIsPrecise : Prop :=
  (∀ (i : Instr) (s t : State), s.Idle → i.payloadBytes ≤ s.din.length → exec i s = .next t → t.progress = none →
    t.err ≠ .ok → t = { s with din := s.din.drop i.payloadBytes, err := t.err }) ∧
  (∀ (E : List Byte → Block → Block) (w : Word) (dir : Direction) (n : Nat) (s : State), checkProcess s ≠ .ok →
    processCommand { Config.params with E := E } w dir n s = processCommand Config.params w dir n s) ∧
  (∀ (E : List Byte → Block → Block) (w : Word) (n : Nat) (code : ErrCode) (s : State),
    rejectCommand { Config.params with E := E } w n code s = rejectCommand Config.params w n code s) ∧
  (∀ (w : Word) (s : State), s.Idle → decode w = .reservedField w →
    (if dataBearing (opField w) then (lenField w).toNat else 0) ≤ s.din.length →
    runWord w s = .next { s with
      din := s.din.drop (if dataBearing (opField w) then (lenField w).toNat else 0)
      err := .reservedField })

/-- FS changes only through a CB = 1 call, or through SETKEY, SETIV, SETMODE or RESETFS (R138); the same for a command
that goes on after a wait. -/
def Obligations.OnlyTheseCommandsWriteFS : Prop :=
  (∀ (i : Instr) (s t : State), exec i s = .next t → t.fs ≠ s.fs →
    (s.cb = true ∧ ∃ dir n, i = callOf dir n) ∨ (∃ n, i = .setkey n) ∨ (∃ n, i = .setiv n) ∨ (∃ m, i = .setmode m) ∨
      i = .resetfs) ∧
  (∀ (s t : State) (p : Progress), s.progress = some p → step s = .next t → t.fs ≠ s.fs →
    (∃ dir pending, p.task = .process dir .live pending) ∨ (∃ got, p.task = .loadKey got) ∨
      ∃ got, p.task = .loadIv got)

/-- Who writes the session's configuration: MODE only SETMODE, and only with CTR, OFB or CFB (R26); CB only CBON and
CBOFF (R27); KEY and KEYLEN only SETKEY (R28); IV and IVV only SETIV (R29). No command touches CMD, RST or FAULT. The
second clause says the same of a step that takes a waiting command on: KEY and KEYLEN change only under an accepted
SETKEY, IV and IVV only under an accepted SETIV, and MODE, CB, CMD, RST and FAULT never. -/
def Obligations.OnlyItsCommandWritesEachSetting : Prop :=
  (∀ (i : Instr) (s t : State), exec i s = .next t →
    (t.mode ≠ s.mode → t.mode ≠ .blk ∧ ∃ m, i = .setmode m) ∧
    (t.cb ≠ s.cb → i = .cbon ∨ i = .cboff) ∧
    (t.key ≠ s.key ∨ t.keyLen ≠ s.keyLen → ∃ n, i = .setkey n) ∧
    (t.iv ≠ s.iv ∨ t.ivv ≠ s.ivv → ∃ n, i = .setiv n) ∧
    t.cmd = s.cmd ∧ t.rst = s.rst ∧ t.fault = s.fault ∧ t.draws = s.draws) ∧
  (∀ (s t : State) (p : Progress), s.progress = some p → step s = .next t →
    t.mode = s.mode ∧ t.cb = s.cb ∧
    (t.key ≠ s.key ∨ t.keyLen ≠ s.keyLen → ∃ got, p.task = .loadKey got) ∧
    (t.iv ≠ s.iv ∨ t.ivv ≠ s.ivv → ∃ got, p.task = .loadIv got) ∧
    t.cmd = s.cmd ∧ t.rst = s.rst ∧ t.fault = s.fault ∧ t.draws = s.draws)

/-- Every command, accepted or rejected, completes once its payload is on DIN and, for an accepted call, DOUT has room:
it pops exactly its payload and leaves the engine idle; only a call moves DOUT (R57, R58, R63). -/
def Obligations.EveryCommandCompletes : Prop :=
  ∀ (i : Instr) (s : State), s.Idle → i.payloadBytes ≤ s.din.length →
    ((∃ dir n, i = callOf dir n) → s.Ready → s.RoomFor i.payloadBytes) →
    ∃ t, exec i s = .next t ∧ t.Idle ∧ t.din = s.din.drop i.payloadBytes ∧ t.cmd = s.cmd ∧
      ((¬∃ dir n, i = callOf dir n) → t.dout = s.dout)

/-! ## ENCRYPT and DECRYPT -/

/-- An accepted ENCRYPT of n bytes: the fold of ByteStep over its n input bytes, from FS with CB = 1 and from InitFS()
with CB = 0; n bytes out, in order; FS written only with CB = 1; STATUS.ERR OK; nothing else changes (R54, R112,
R113). -/
def Obligations.EncryptResult : Prop :=
  ∀ (n : Nat) (s : State), s.Idle → s.Ready → n ≤ s.din.length → s.RoomFor n →
    ∃ S' ys, byteFold Config.E s.mode (keyInUse s) .enc (callStart s) (s.din.take n) = some (S', ys) ∧
      ys.length = n ∧
      exec (.encrypt n) s = .next { s with
        din := s.din.drop n
        dout := s.dout ++ ys
        fs := if s.cb then S' else s.fs
        err := .ok }

/-- An accepted DECRYPT of n bytes, as ENCRYPT in the other direction (R54, R112, R114). -/
def Obligations.DecryptResult : Prop :=
  ∀ (n : Nat) (s : State), s.Idle → s.Ready → n ≤ s.din.length → s.RoomFor n →
    ∃ S' ys, byteFold Config.E s.mode (keyInUse s) .dec (callStart s) (s.din.take n) = some (S', ys) ∧
      ys.length = n ∧
      exec (.decrypt n) s = .next { s with
        din := s.din.drop n
        dout := s.dout ++ ys
        fs := if s.cb then S' else s.fs
        err := .ok }

/-- R121, R122: the rejections of ENCRYPT and DECRYPT, in the order of R153. -/
def Obligations.UnconfiguredCallIsRejected : Prop :=
  ∀ (dir : Direction) (n : Nat) (s : State), s.Idle → n ≤ s.din.length →
    (s.mode = .blk →
      exec (callOf dir n) s = .next { s with din := s.din.drop n, err := .notStreaming }) ∧
    (s.mode ≠ .blk → s.keyLen = .noKey →
      exec (callOf dir n) s = .next { s with din := s.din.drop n, err := .noKey }) ∧
    (s.mode ≠ .blk → s.keyLen ≠ .noKey → s.ivv = false →
      exec (callOf dir n) s = .next { s with din := s.din.drop n, err := .noIv })

/-- R118: an accepted empty call changes nothing but STATUS.ERR, with either CB value, and whatever E is. -/
def Obligations.EmptyCallChangesOnlyErr : Prop :=
  ∀ (dir : Direction) (s : State), s.Idle → s.Ready →
    exec (callOf dir 0) s = .next { s with err := .ok } ∧
    ∀ (P : Params) (w : Word), processCommand P w dir 0 s = { s with err := .ok }

/-- With CB = 1 the output bytes and the end state do not depend on how a message is cut into calls (R116). Each call is
served byte by byte, so that no queue depth bounds a message. That a served run exists, each step yielding its byte at
once, rests on the model's choices of log entries 1 and 4. -/
def Obligations.ChunkSizeIndependence : Prop :=
  ∀ (dir : Direction) (ps qs : List (List Byte)) (s : State), s.Idle → s.Ready → s.cb = true → s.din = [] →
    s.dout = [] → ps ≠ [] → qs ≠ [] → ps.flatten = qs.flatten →
    ∃ ys t, runServed (callsOf dir ps) s = some (ys, t) ∧ runServed (callsOf dir qs) s = some (ys, t) ∧
      ys.length = ps.flatten.length

/-- Two engines with equal MODE, key(), IV and FS and CB = 1: what one encrypts in any chunking, the other decrypts in
any other chunking back to the message, and both end with equal FS (R117). That the served runs exist, each step
yielding its byte at once, rests on the model's choices of log entries 1 and 4. -/
def Obligations.RoundTripInAnyChunking : Prop :=
  ∀ (ps : List (List Byte)) (s₁ s₂ : State), s₁.Idle → s₂.Idle → s₁.Ready → s₂.Ready → s₁.cb = true → s₂.cb = true →
    s₁.din = [] → s₁.dout = [] → s₂.din = [] → s₂.dout = [] → s₂.mode = s₁.mode → keyInUse s₂ = keyInUse s₁ →
    s₂.iv = s₁.iv → s₂.fs = s₁.fs →
    ∃ C t₁, runServed (callsOf .enc ps) s₁ = some (C, t₁) ∧
      ∀ qs : List (List Byte), qs.flatten = C →
        ∃ t₂, runServed (callsOf .dec qs) s₂ = some (ps.flatten, t₂) ∧ t₂.fs = t₁.fs

/-- R119: in CTR and OFB the direction does not matter, byte by byte and call by call. -/
def Obligations.DirectionIrrelevantInCtrAndOfb : Prop :=
  (∀ (E : List Byte → Block → Block) (mode : Mode) (key : List Byte) (S : FeedbackState) (x : Byte),
    mode = .ctr ∨ mode = .ofb → byteStep E mode key .enc S x = byteStep E mode key .dec S x) ∧
  (∀ (n : Nat) (s : State), s.Idle → s.Ready → s.mode = .ctr ∨ s.mode = .ofb → n ≤ s.din.length → s.RoomFor n →
    ∃ t, exec (.encrypt n) s = .next t ∧ exec (.decrypt n) s = .next t)

/-- R123: with CB = 0, two ENCRYPTs of one payload under one mode, key and IV push the same bytes, and neither changes
FS, whatever FS each started from. -/
def Obligations.CallsWithoutContinuousBufferRepeat : Prop :=
  ∀ (n : Nat) (s₁ s₂ : State), s₁.Idle → s₂.Idle → s₁.Ready → s₂.Ready → s₁.cb = false → s₂.cb = false →
    s₂.mode = s₁.mode → s₂.key = s₁.key → s₂.keyLen = s₁.keyLen → s₂.iv = s₁.iv → n ≤ s₁.din.length →
    s₂.din.take n = s₁.din.take n → s₁.RoomFor n → s₂.RoomFor n →
    ∃ ys t₁ t₂, exec (.encrypt n) s₁ = .next t₁ ∧ exec (.encrypt n) s₂ = .next t₂ ∧
      t₁.dout = s₁.dout ++ ys ∧ t₂.dout = s₂.dout ++ ys ∧ t₁.fs = s₁.fs ∧ t₂.fs = s₂.fs

/-- R124: a CB = 1 call that ends exactly at a block boundary leaves CUR = 0 and KS = 0^B. The premise on FS is the FS
invariant (R25). -/
def Obligations.ExactBlockBoundaryLeavesNothingPending : Prop :=
  ∀ (dir : Direction) (n : Nat) (s : State), s.Idle → s.Ready → s.cb = true → s.fs.Ok → n ≤ s.din.length →
    s.RoomFor n → (s.fs.cur.toNat + n) % blockBytes = 0 →
    ∃ t, exec (callOf dir n) s = .next t ∧ t.fs.cur = 0#4 ∧ t.fs.ks = zeroBlock

/-- R120: the byte steps over any run of bytes, from any state and in any mode, produce what the block-wise algorithm
produces: residual first, then whole blocks, then a partial block. -/
def Obligations.ByteStepsAgreeWithBlockwiseAlgorithm : Prop :=
  ∀ (E : List Byte → Block → Block) (mode : Mode) (key : List Byte) (dir : Direction) (S : FeedbackState)
    (xs : List Byte),
    byteFold E mode key dir S xs = some (blockwise E mode key dir xs.length S xs)

/-- R115: an accepted call of n bytes pushes exactly n, and output byte i depends only on the state at the start and on
input bytes 0..i: two payloads that agree on their first k bytes give the same first k output bytes. -/
def Obligations.OutputDependsOnInputPrefix : Prop :=
  ∀ (dir : Direction) (n k : Nat) (s : State) (d : List Byte), s.Idle → s.Ready → n ≤ s.din.length → n ≤ d.length →
    s.RoomFor n → k ≤ n → d.take k = s.din.take k →
    ∃ t u, exec (callOf dir n) s = .next t ∧ exec (callOf dir n) { s with din := d } = .next u ∧
      t.dout.length = s.dout.length + n ∧ u.dout.length = s.dout.length + n ∧
      t.dout.take (s.dout.length + k) = u.dout.take (s.dout.length + k)

/-! ## The byte step -/

/-- R105: after the byte at CUR = B - 1 in CTR mode, REG is the big-endian integer plus 1 modulo 2^(8B), whatever the
data and the direction. -/
def Obligations.CounterIncrementsAtBlockCompletion : Prop :=
  ∀ (E : List Byte → Block → Block) (key : List Byte) (dir : Direction) (S : FeedbackState) (x : Byte), S.cur = 15#4 →
    ∃ S' y, byteStep E .ctr key dir S x = some (S', y) ∧ be S'.reg = (be S.reg + 1) % 2 ^ (8 * blockBytes) ∧
      S'.reg = beBytes ((be S.reg + 1) % 2 ^ (8 * blockBytes))

/-- R125: the counter wraps from 0xFF repeated to 0^16, the next keystream block is E(key(), 0^16), and no status, fault
or flag reports it. -/
def Obligations.CounterWrapsSilently : Prop :=
  (∀ (E : List Byte → Block → Block) (key : List Byte) (dir : Direction) (S : FeedbackState) (x x' : Byte),
    S.cur = 15#4 → S.reg = Vector.replicate blockBytes 0xFF#8 →
    ∃ S₁ y S₂ y', byteStep E .ctr key dir S x = some (S₁, y) ∧ S₁.reg = zeroBlock ∧
      byteStep E .ctr key dir S₁ x' = some (S₂, y') ∧ y' = x' ^^^ byteAt (E key zeroBlock) 0#4) ∧
  (∀ (dir : Direction) (s : State), s.Idle → s.Ready → s.mode = .ctr → s.cb = true → 1 ≤ s.din.length → s.RoomFor 1 →
    s.fs.cur = 15#4 → s.fs.reg = Vector.replicate blockBytes 0xFF#8 →
    ∃ t, exec (callOf dir 1) s = .next t ∧ t.fs.reg = zeroBlock ∧ t.err = .ok ∧ t.fault = false ∧
      t.progress = none)

/-- R106: in OFB, when the byte at CUR = B - 1 has been used, REG is the keystream block just finished, and the next
keystream block is E(key(), that block); so a whole block from a block boundary leaves REG = E(key(), REG). -/
def Obligations.OfbFeedsBackTheKeystreamBlock : Prop :=
  (∀ (E : List Byte → Block → Block) (key : List Byte) (dir : Direction) (S : FeedbackState) (x x' : Byte),
    S.cur = 15#4 →
    ∃ S₁ y S₂ y', byteStep E .ofb key dir S x = some (S₁, y) ∧ S₁ = ⟨S.ks, zeroBlock, 0#4⟩ ∧
      byteStep E .ofb key dir S₁ x' = some (S₂, y') ∧ S₂.ks = E key S.ks ∧ y' = x' ^^^ byteAt (E key S.ks) 0#4) ∧
  (∀ (E : List Byte → Block → Block) (key : List Byte) (dir : Direction) (S : FeedbackState) (xs : List Byte),
    S.cur = 0#4 → xs.length = blockBytes →
    ∃ S' ys, byteFold E .ofb key dir S xs = some (S', ys) ∧ S' = ⟨E key S.reg, zeroBlock, 0#4⟩ ∧
      ys = List.zipWith (fun x k => x ^^^ k) xs (E key S.reg).toList)

/-- In CFB the ciphertext byte, the output for ENC and the input for DEC, takes the place of the used keystream byte in
KS; in CTR and OFB the XOR leaves KS alone; REG stays (R104, R107, R109). The byte is any but a block's last. -/
def Obligations.CfbKeepsTheCiphertextByte : Prop :=
  ∀ (E : List Byte → Block → Block) (mode : Mode) (key : List Byte) (dir : Direction) (S : FeedbackState) (x : Byte),
    S.cur.toNat < 15 →
    ∃ S' y, byteStep E mode key dir S x = some (S', y) ∧ S'.reg = S.reg ∧ S'.cur.toNat = S.cur.toNat + 1 ∧
      y = x ^^^ byteAt (segmentBlock E key S) S.cur ∧
      S'.ks.toList = (match mode, dir with
        | .cfb, .enc => (segmentBlock E key S).toList.set S.cur.toNat y
        | .cfb, .dec => (segmentBlock E key S).toList.set S.cur.toNat x
        | .ctr, _ => (segmentBlock E key S).toList
        | .ofb, _ => (segmentBlock E key S).toList
        | .blk, _ => (segmentBlock E key S).toList)

/-- In CFB, after a whole block from a block boundary, REG is the ciphertext block: the output for ENC, the input for
DEC (R104, R107). -/
def Obligations.CfbFeedsBackTheCiphertextBlock : Prop :=
  ∀ (E : List Byte → Block → Block) (key : List Byte) (dir : Direction) (S : FeedbackState) (xs : List Byte),
    S.cur = 0#4 → xs.length = blockBytes →
    ∃ S' ys, byteFold E .cfb key dir S xs = some (S', ys) ∧
      ys = List.zipWith (fun x k => x ^^^ k) xs (E key S.reg).toList ∧
      S'.reg.toList = (match dir with
        | .enc => ys
        | .dec => xs) ∧
      S'.ks = zeroBlock ∧ S'.cur = 0#4

/-- Inside a block REG keeps the value the pending keystream block was made from, CUR counts the bytes used, and the
bytes of KS not yet used are those of E(key(), REG) (R24, R103, R109). -/
def Obligations.RegisterHeldInsideABlock : Prop :=
  ∀ (E : List Byte → Block → Block) (mode : Mode) (key : List Byte) (dir : Direction) (S : FeedbackState)
    (xs : List Byte), S.cur = 0#4 → 0 < xs.length → xs.length < blockBytes →
    ∃ S' ys, byteFold E mode key dir S xs = some (S', ys) ∧ S'.reg = S.reg ∧ S'.cur.toNat = xs.length ∧
      S'.ks.toList.drop xs.length = (E key S.reg).toList.drop xs.length

/-- R25: CUR is in 0..B-1 and CUR = 0 implies KS = 0^B in every state that the engine and its host reach; hardware
reset, FsReset and every byte step leave a feedback state in which it holds. -/
def Obligations.FeedbackStateInvariant : Prop :=
  (∀ s : State, Reachable s → s.fs.Ok ∧ s.fs.cur.toNat < blockBytes) ∧
  (∀ s : State, (fsReset s).fs.Ok ∧ (hardReset s).fs.Ok) ∧
  (∀ (E : List Byte → Block → Block) (mode : Mode) (key : List Byte) (dir : Direction) (S : FeedbackState) (x : Byte),
    ∃ S' y, byteStep E mode key dir S x = some (S', y) ∧ S'.Ok ∧ S'.cur.toNat < blockBytes)

/-- R111: the byte step depends on E only through its value at key() and REG, and only with CUR = 0 (R103); an input
byte reaches REG only at block completion. -/
def Obligations.PrimitiveSeesOnlyKeyAndRegister : Prop :=
  (∀ (E E' : List Byte → Block → Block) (mode : Mode) (key : List Byte) (dir : Direction) (S : FeedbackState)
    (x : Byte), (S.cur = 0#4 → E key S.reg = E' key S.reg) →
    byteStep E mode key dir S x = byteStep E' mode key dir S x) ∧
  (∀ (E : List Byte → Block → Block) (mode : Mode) (key : List Byte) (dir : Direction) (S : FeedbackState) (x : Byte),
    S.cur ≠ 15#4 → ∃ S' y, byteStep E mode key dir S x = some (S', y) ∧ S'.reg = S.reg)

/-- R12: `be` is the big-endian sum, and `be_bytes` is its inverse on 0..2^(8B) - 1. -/
def Obligations.BlockIntegersAreBigEndian : Prop :=
  (∀ A : Block, be A =
    ((List.range blockBytes).map fun i => (A.toList.getD i 0#8).toNat * 256 ^ (blockBytes - 1 - i)).sum) ∧
  (∀ A : Block, beBytes (be A) = A) ∧
  (∀ v : Nat, v < 2 ^ (8 * blockBytes) → be (beBytes v) = v)

/-! ## Waiting and going on -/

/-- R55: a command that needs an input byte while DIN holds none waits, and changes no state, until a byte arrives. The
premise on a call says that it has no earlier output byte that it could still push (R56). -/
def Obligations.InputUnderrunWaits : Prop :=
  ∀ (s : State) (p : Progress), s.rst = false → s.fault = false → s.progress = some p → 0 < p.left → s.din = [] →
    (∀ dir work pending, p.task = .process dir work pending →
      pending = [] ∨ Config.params.doutDepth ≤ s.dout.length) →
    step s = .next s

/-- A call with output bytes to push, one or several, waits while DOUT is full (R56). It pushes nothing and stays in
progress; what it may still do is pop input bytes ahead and compute their output bytes behind the ones pending (R64).
With no byte to take, no byte on DIN, or no room to run ahead (`mayPop`, the model's choice of log entry 4), nothing
changes at all.

After the host takes any number of bytes of a full DOUT, the next step pushes the oldest pending bytes in order, and the
output bytes of input that it takes meanwhile behind them, until DOUT is full again; the call goes on, or ends with OK
if nothing is left of it (`CallGoesOn`). A call that starts does the same, with nothing pending, whatever room DOUT has.
That one step pushes all that fits and pops all that it may rests on the model's choices of log entries 1 and 4.

The value of FS in a call that still waits (`work.fsAfter`) is log entry 8, DEDUCED: R34 makes FS itself the working
feedback state of a CB = 1 call, so FS moves with each byte computed, where R112's pseudocode writes it once, at the
end. With CB = 0 the working copy moves and FS stays (R33). -/
def Obligations.FullOutputQueueWaits : Prop :=
  (∀ (s : State) (p : Progress) (dir : Direction) (work : Work) (y : Byte) (ys : List Byte),
    s.rst = false → s.fault = false → s.progress = some p → p.task = .process dir work (y :: ys) →
    s.dout.length = Config.params.doutDepth →
    (∃ S' more, byteFold Config.E s.mode (keyInUse s) dir (work.read s.fs) (s.din.take more.length) = some (S', more) ∧
      more.length ≤ p.left ∧
      step s = .next { s with
        din := s.din.drop more.length
        fs := work.fsAfter s.fs S'
        progress := some ⟨p.word, p.left - more.length, .process dir (work.after S') (y :: ys ++ more)⟩ }) ∧
    (p.left = 0 ∨ s.din = [] ∨ mayPop Config.params (y :: ys) = false → step s = .next s)) ∧
  (∀ (s : State) (p : Progress) (dir : Direction) (work : Work) (pending taken rest : List Byte),
    s.rst = false → s.fault = false → s.progress = some p → p.task = .process dir work pending →
    s.dout = taken ++ rest → s.dout.length = Config.params.doutDepth →
    ∃ t, takeBytes taken.length s = some (taken, { s with dout := rest }) ∧
      step { s with dout := rest } = .next t ∧ CallGoesOn { s with dout := rest } p dir work pending t) ∧
  (∀ (s : State) (dir : Direction) (n : Nat), s.Idle → s.Ready → s.dout.length ≤ Config.params.doutDepth →
    ∃ t, exec (callOf dir n) s = .next t ∧
      CallGoesOn s ⟨encode (callOf dir n), n, .process dir (startWork s) []⟩ dir (startWork s) [] t)

/-- A payload that arrives in parts has the same effect as one that is there at once (R55, R61). In two parts: the
command waits with BUSY = 1 after the first part, still to take as many bytes as the second has, and with the second
ends in the same state. In more: a command that waits and gets a part too short to end it waits on, and what it then
does with any further bytes behind those left on DIN is what it would have done with both parts at once; it counts down
by the bytes it takes. So the KEY and the IV that a SETKEY or SETIV leaves are those of its payload at once, in however
many parts that came.

A waiting command that is no accepted call has changed nothing yet but DIN and its own progress: of a rejected one R152
says so; that an accepted SETKEY or SETIV writes its registers with the last byte is log entry 6, DEDUCED. How many
bytes a waiting command has popped (`din := []` and `t.din = []`) rests on the model's choices of log entries 1 and 4. -/
def Obligations.SupplyTimingIsIrrelevant : Prop :=
  (∀ (i : Instr) (s : State) (a b : List Byte), s.Idle → i.payloadBytes = a.length + b.length → b ≠ [] →
    ((∃ dir n, i = callOf dir n) → s.Ready → s.RoomFor i.payloadBytes) →
    ∃ t u, exec i { s with din := a } = .next t ∧ t.busy = true ∧ (∃ p, t.progress = some p ∧ p.left = b.length) ∧
      t.din = [] ∧ t.rst = false ∧ t.fault = false ∧
      ((∀ dir n, i = callOf dir n → ¬s.Ready) → t = { s with din := [], progress := t.progress }) ∧
      step { t with din := b } = .next u ∧ exec i { s with din := a ++ b } = .next u ∧ u.progress = none) ∧
  (∀ (s : State) (p : Progress) (a : List Byte), s.rst = false → s.fault = false → s.progress = some p →
    a.length < p.left →
    ∃ t q, step { s with din := a } = .next t ∧ t.rst = false ∧ t.fault = false ∧ t.progress = some q ∧
      q.left + a.length = p.left + t.din.length ∧
      (∀ b : List Byte, step { t with din := t.din ++ b } = step { s with din := a ++ b }) ∧
      ((∀ dir work pending, p.task ≠ .process dir work pending) → t = { s with din := [], progress := some q }) ∧
      ((∀ dir work pending, p.task = .process dir work pending → s.RoomFor (pending.length + a.length)) → t.din = []))

/-- A host that supplies a byte, lets the engine step and takes the output byte, over and over, gets every output byte
of a call of any length and ends with the engine idle, whatever the queue depths are (R54, R64, R185). That each step
pops and pushes at once, so that the byte can be taken, rests on the model's choices of log entries 1 and 4: R64
promises no such interleaving. -/
def Obligations.ServedCallDeliversEveryByte : Prop :=
  ∀ (dir : Direction) (xs : List Byte) (s : State), s.Idle → s.Ready → s.din = [] → s.dout = [] →
    ∃ t S' ys, exec (callOf dir xs.length) s = .next t ∧
      byteFold Config.E s.mode (keyInUse s) dir (callStart s) xs = some (S', ys) ∧
      serve xs t = some (ys, { s with fs := if s.cb then S' else s.fs, err := .ok })

/-! ## Session control -/

/-- SETKEY n (R131): with 16, 24 or 32 bytes KEY holds them and zeros to the end, KEYLEN says how many, FS is the init
state; any other length is KEY_LENGTH with nothing else changed; the n bytes are popped either way (R57). -/
def Obligations.SetkeyEffect : Prop :=
  ∀ (n : Nat) (s : State), s.Idle → n ≤ s.din.length →
    (n = 16 ∨ n = 24 ∨ n = 32 →
      ∃ key keyLen, key.toList = s.din.take n ++ List.replicate (32 - n) 0#8 ∧ keyLen.bytes = n ∧
        exec (.setkey n) s = .next { s with
          din := s.din.drop n
          key := key
          keyLen := keyLen
          fs := ⟨s.iv, zeroBlock, 0#4⟩
          err := .ok }) ∧
    (¬(n = 16 ∨ n = 24 ∨ n = 32) →
      exec (.setkey n) s = .next { s with din := s.din.drop n, err := .keyLength })

/-- SETIV n (R132): 16 bytes become IV, IVV is set and FS is the init state of the new IV; any other length is IV_LENGTH
with nothing else changed; the n bytes are popped either way (R57). -/
def Obligations.SetivEffect : Prop :=
  ∀ (n : Nat) (s : State), s.Idle → n ≤ s.din.length →
    (n = 16 →
      ∃ iv, iv.toList = s.din.take 16 ∧
        exec (.setiv n) s = .next { s with
          din := s.din.drop n
          iv := iv
          ivv := true
          fs := ⟨iv, zeroBlock, 0#4⟩
          err := .ok }) ∧
    (n ≠ 16 → exec (.setiv n) s = .next { s with din := s.din.drop n, err := .ivLength })

/-- SETMODE m (R78, R133). -/
def Obligations.SetmodeEffect : Prop :=
  ∀ s : State, s.Idle →
    exec (.setmode 0#2) s = .next { s with mode := .ctr, fs := ⟨s.iv, zeroBlock, 0#4⟩, err := .ok } ∧
    exec (.setmode 1#2) s = .next { s with mode := .ofb, fs := ⟨s.iv, zeroBlock, 0#4⟩, err := .ok } ∧
    exec (.setmode 2#2) s = .next { s with mode := .cfb, fs := ⟨s.iv, zeroBlock, 0#4⟩, err := .ok } ∧
    exec (.setmode 3#2) s = .next { s with err := .modeValue }

/-- CBON and CBOFF write CB and STATUS.ERR, nothing else (R134, R135). -/
def Obligations.CbonAndCboffEffect : Prop :=
  ∀ s : State, s.Idle →
    exec .cbon s = .next { s with cb := true, err := .ok } ∧ exec .cboff s = .next { s with cb := false, err := .ok }

/-- RESETFS puts FS back at the init state of the IV as it stands, nothing else (R130, R136). -/
def Obligations.ResetfsEffect : Prop :=
  ∀ s : State, s.Idle → exec .resetfs s = .next { s with fs := ⟨s.iv, zeroBlock, 0#4⟩, err := .ok }

/-- SETBLKLEN v, for every v, changes nothing but STATUS.ERR (R137); BLKSZ still reads 0x00000010. -/
def Obligations.SetblklenEffect : Prop :=
  ∀ (v : Nat) (s : State), s.Idle →
    exec (.setblklen v) s = .next { s with err := .ok } ∧ (csrRead 3#6 { s with err := .ok }).1 = 0x00000010#32

/-- R76: a word with a reserved opcode is rejected with ILLEGAL_OP whatever its other fields hold, pops no DIN byte and
changes nothing but STATUS.ERR; so does each of the three rows' commands. -/
def Obligations.ReservedOpcodeIsIllegal : Prop :=
  (∀ (s : State) (other : BitVec 28) (op : BitVec 4), s.Idle →
    exec (.reservedZero other) s = .next { s with err := .illegalOp } ∧
    exec (.reservedAB op other) s = .next { s with err := .illegalOp } ∧
    exec (.reservedCF op other) s = .next { s with err := .illegalOp }) ∧
  (∀ (s : State) (w : Word) (ws : List Word), s.Idle → s.cmd = w :: ws →
    opField w = 0x0#4 ∨ 0xA ≤ (opField w).toNat → step s = .next { s with cmd := ws, err := .illegalOp })

/-- R139: an accepted SETKEY, SETIV or SETMODE leaves FS at the init state of the IV, with either CB value: a pending
residual is lost; the same when a SETKEY or SETIV completes after a wait. -/
def Obligations.KeyIvAndModeChangesResetFS : Prop :=
  (∀ (i : Instr) (s t : State), (∃ n, i = .setkey n) ∨ (∃ n, i = .setiv n) ∨ (∃ m, i = .setmode m) →
    exec i s = .next t → t.progress = none → t.err = .ok → t.fs = ⟨t.iv, zeroBlock, 0#4⟩) ∧
  (∀ (s t : State) (p : Progress), s.rst = false → s.progress = some p →
    (∃ got, p.task = .loadKey got ∨ p.task = .loadIv got) → step s = .next t → t.progress = none →
    t.fs = ⟨t.iv, zeroBlock, 0#4⟩)

/-- R140: after accepted SETMODE m, SETKEY and SETIV in any order, MODE, the key and the IV are the given ones, FS is
the init state, CB is as it was; the engine then accepts calls (R173). -/
def Obligations.ConfigurationInAnyOrder : Prop :=
  ∀ (m : BitVec 2) (mode : Mode) (K V : List Byte) (l : List (Instr × List Byte)) (s : State), s.Idle →
    streamingMode m = some mode → K.length ∈ keyLengths → V.length = blockBytes →
    l.Perm [(.setmode m, []), (.setkey K.length, K), (.setiv 16, V)] →
    ∃ t, runSupplied l s = some t ∧ t.mode = mode ∧ keyInUse t = K ∧ t.iv.toList = V ∧ t.ivv = true ∧
      t.fs = ⟨t.iv, zeroBlock, 0#4⟩ ∧ t.cb = s.cb ∧ t.Ready

/-! ## The host's port -/

/-- The CSR map while BUSY = 0: the fields of CTRL, STATUS and CURSOR in their places, hardwired zeros, BLKSZ, and 0 at
every unmapped address (R36, R37, R38, R39, R43). The first three clauses fix what the fields read: the values of MODE
(R26), those of KEYLEN with the key bytes each says are in use (R28), and the result codes, none of them 9 to 15
(R151). -/
def Obligations.CsrMapWhenNotBusy : Prop :=
  (Mode.ctr.bits = 0#2 ∧ Mode.ofb.bits = 1#2 ∧ Mode.cfb.bits = 2#2 ∧ Mode.blk.bits = 3#2) ∧
  ((KeyLen.noKey.bits = 0#2 ∧ KeyLen.key16.bits = 1#2 ∧ KeyLen.key24.bits = 2#2 ∧ KeyLen.key32.bits = 3#2) ∧
    (∀ s : State, s.keyLen.bits = 1#2 → keyInUse s = s.key.toList.take 16) ∧
    (∀ s : State, s.keyLen.bits = 2#2 → keyInUse s = s.key.toList.take 24) ∧
    (∀ s : State, s.keyLen.bits = 3#2 → keyInUse s = s.key.toList)) ∧
  ((ErrCode.ok.code = 0#4 ∧ ErrCode.illegalOp.code = 1#4 ∧ ErrCode.reservedField.code = 2#4 ∧
      ErrCode.keyLength.code = 3#4 ∧ ErrCode.ivLength.code = 4#4 ∧ ErrCode.modeValue.code = 5#4 ∧
      ErrCode.notStreaming.code = 6#4 ∧ ErrCode.noKey.code = 7#4 ∧ ErrCode.noIv.code = 8#4) ∧
    ∀ c : ErrCode, c.code.toNat ≤ 8) ∧
  ∀ s : State, s.busy = false →
    ((csrRead 0#6 s).1.extractLsb' 0 2 = s.mode.bits ∧ (csrRead 0#6 s).1.extractLsb' 2 1 = BitVec.ofBool s.cb ∧
      (csrRead 0#6 s).1.extractLsb' 3 2 = s.keyLen.bits ∧ (csrRead 0#6 s).1.extractLsb' 5 1 = BitVec.ofBool s.ivv ∧
      (csrRead 0#6 s).1.extractLsb' 6 26 = 0#26) ∧
    ((csrRead 1#6 s).1.extractLsb' 0 4 = s.err.code ∧ (csrRead 1#6 s).1.extractLsb' 4 1 = 0#1 ∧
      (csrRead 1#6 s).1.extractLsb' 5 1 = BitVec.ofBool s.fault ∧ (csrRead 1#6 s).1.extractLsb' 6 26 = 0#26) ∧
    ((csrRead 2#6 s).1.extractLsb' 0 4 = s.fs.cur ∧ (csrRead 2#6 s).1.extractLsb' 4 28 = 0#28) ∧
    (csrRead 3#6 s).1 = 0x00000010#32 ∧
    (∀ index : BitVec 6, 16 ≤ index.toNat → (csrRead index s).1 = 0#32)

/-- R52: byte 4k + j of a block stands at bits 31 - 8j down to 24 - 8j of word k, so the four words in address order
spell the big-endian integer from the top; the words of REG, KS and IV stand at word indices 4, 8 and 12 on (R40,
R41, R42). -/
def Obligations.BlockCsrPacking : Prop :=
  (∀ (A : Block) (k j : Nat), k < 4 → j < 4 →
    (blockWord A k).extractLsb' (24 - 8 * j) 8 = A.toList.getD (4 * k + j) 0#8) ∧
  (∀ A : Block, be A = (blockWord A 0).toNat * 2 ^ 96 + (blockWord A 1).toNat * 2 ^ 64
    + (blockWord A 2).toNat * 2 ^ 32 + (blockWord A 3).toNat) ∧
  (∀ (s : State) (k : Nat), s.busy = false → k < 4 →
    (csrRead (BitVec.ofNat 6 (4 + k)) s).1 = blockWord s.fs.reg k ∧
    (csrRead (BitVec.ofNat 6 (8 + k)) s).1 = blockWord s.fs.ks k ∧
    (csrRead (BitVec.ofNat 6 (12 + k)) s).1 = blockWord s.iv k)

/-- A CSR read while BUSY = 1 gives a correct BUSY, a correct FAULT and the BLKSZ constant, whatever the draw (R65, R180);
the other bits are free values (log entry 5), of which nothing is said. -/
def Obligations.BusyReadsOfBusyFaultAndBlksz : Prop :=
  ∀ s : State, s.busy = true →
    (csrRead 1#6 s).1.extractLsb' 4 1 = 1#1 ∧ (csrRead 1#6 s).1.extractLsb' 5 1 = BitVec.ofBool s.fault ∧
    (csrRead 3#6 s).1 = 0x00000010#32

/-- What each act of the host does, and that it does nothing else. A CSR read changes nothing of the engine (R43, R51);
while BUSY = 1 it advances the model's own draw counter (log entry 5), so that reads differ freely. With RST released
and room in the queue, a command word goes to the far end of CMD and a byte to the far end of DIN (R50, R53, R63). The
byte taken is the oldest of DOUT (R54). On a full CMD or DIN and on an empty DOUT nothing happens: the model's choice
(log entry 15). -/
def Obligations.HostActsChangeOnlyTheirQueue : Prop :=
  ∀ s : State,
    (∀ index : BitVec 6,
      (csrRead index s).2 = { s with draws := if s.busy then s.draws + 1 else s.draws } ∧
      hostAct .owner (.readCsr index) s = .next { s with draws := if s.busy then s.draws + 1 else s.draws }) ∧
    (s.rst = false →
      (∀ w : Word, s.cmd.length < Config.params.cmdDepth →
        hostAct .owner (.writeCmd w) s = .next { s with cmd := s.cmd ++ [w] }) ∧
      (∀ w : Word, Config.params.cmdDepth ≤ s.cmd.length → hostAct .owner (.writeCmd w) s = .next s) ∧
      (∀ b : Byte, s.din.length < Config.params.dinDepth →
        hostAct .owner (.supplyByte b) s = .next { s with din := s.din ++ [b] }) ∧
      (∀ b : Byte, Config.params.dinDepth ≤ s.din.length → hostAct .owner (.supplyByte b) s = .next s)) ∧
    (∀ (y : Byte) (ys : List Byte), s.dout = y :: ys →
      takeByte s = some (y, { s with dout := ys }) ∧ hostAct .owner .takeByte s = .next { s with dout := ys }) ∧
    (s.dout = [] → takeByte s = none ∧ hostAct .owner .takeByte s = .next s)

/-- No CSR read shows anything of KEY: two states that differ only in KEY read the same everywhere (R43). -/
def Obligations.KeyIsNotReadable : Prop :=
  ∀ (index : BitVec 6) (s : State) (key : Vector Byte 32),
    (csrRead index { s with key := key }).1 = (csrRead index s).1

/-- A second host's act on the engine is refused (R179). -/
def Obligations.SecondHostIsRefused : Prop :=
  ∀ (a : HostAction) (s : State), hostAct .second a s = .refused .secondHost
end

