-- ==== Sys2Proof/Laws/Blocks.lean ====
section
/-! SUPPORT. Blocks as integers and back (R12), and the bytes of blocks formed from streams (R53). -/

namespace Sys2Proof.Machine

/-- The big-endian value of a list of bytes. -/
def beList (l : List Byte) : Nat := l.foldl (fun v b => 256 * v + b.toNat) 0

theorem be_eq_beList (A : Block) : be A = beList A.toList := rfl

@[simp] theorem beList_nil : beList [] = 0 := rfl

@[simp] theorem beList_append_singleton (l : List Byte) (b : Byte) :
    beList (l ++ [b]) = 256 * beList l + b.toNat := by
  simp [beList, List.foldl_append]

theorem beList_lt (l : List Byte) : beList l < 256 ^ l.length := by
  induction l using List.reverseRecOn with
  | nil => simp
  | append_singleton l b ih =>
    have := b.isLt
    rw [beList_append_singleton, List.length_append, List.length_singleton, pow_succ]
    omega

theorem beList_injective (l₁ l₂ : List Byte) (hlen : l₁.length = l₂.length) (h : beList l₁ = beList l₂) :
    l₁ = l₂ := by
  induction l₁ using List.reverseRecOn generalizing l₂ with
  | nil => exact (List.length_eq_zero_iff.mp hlen.symm).symm
  | append_singleton l b ih =>
    rcases l₂.eq_nil_or_concat with rfl | ⟨l', b', rfl⟩
    · simp at hlen
    · simp only [List.concat_eq_append, beList_append_singleton, List.length_append, List.length_singleton] at h hlen
      have hb := b.isLt
      have hb' := b'.isLt
      have h1 : beList l = beList l' := by omega
      have h2 : b = b' := BitVec.eq_of_toNat_eq (by omega)
      rw [ih l' (by omega) h1, h2, List.concat_eq_append]

/-- The base-256 digits of `v`, most significant first, spell `v` modulo 256^n. -/
theorem beList_digits (n v : Nat) :
    beList ((List.range n).map fun i => BitVec.ofNat 8 (v / 256 ^ (n - 1 - i))) = v % 256 ^ n := by
  induction n generalizing v with
  | zero => simp [Nat.mod_one]
  | succ n ih =>
    have hinit : ((List.range n).map fun i => BitVec.ofNat 8 (v / 256 ^ (n + 1 - 1 - i)))
        = (List.range n).map fun i => BitVec.ofNat 8 (v / 256 / 256 ^ (n - 1 - i)) := by
      apply List.map_congr_left
      intro i hi
      have hi := List.mem_range.mp hi
      have he : n + 1 - 1 - i = (n - 1 - i) + 1 := by omega
      rw [he, pow_succ, Nat.mul_comm, ← Nat.div_div_eq_div_mul]
    rw [List.range_succ, List.map_append, hinit, List.map_singleton, beList_append_singleton, ih]
    have hlast : n + 1 - 1 - n = 0 := by omega
    have hpow : 256 ^ (n + 1) = 256 * 256 ^ n := by ring
    rw [hlast, pow_zero, Nat.div_one, BitVec.toNat_ofNat, hpow, Nat.mod_mul]
    omega

/-- The bytes of `arrayOfBytes`: the first `n`, zero-filled. -/
@[simp] theorem arrayOfBytes_toList (n : Nat) (bytes : List Byte) :
    (arrayOfBytes n bytes).toList = (bytes ++ List.replicate n 0#8).take n := by
  simp [arrayOfBytes, Vector.toList]

theorem arrayOfBytes_toList_of_length (n : Nat) (bytes : List Byte) (h : bytes.length = n) :
    (arrayOfBytes n bytes).toList = bytes := by
  subst h
  simp

theorem block_ext {n : Nat} (A C : Vector Byte n) (h : A.toList = C.toList) : A = C := by
  apply Vector.toArray_inj.mp
  exact Array.toList_inj.mp h

@[simp] theorem arrayOfBytes_self {n : Nat} (A : Vector Byte n) : arrayOfBytes n A.toList = A := by
  apply block_ext
  rw [arrayOfBytes_toList_of_length]
  simp

theorem arrayOfBytes_getD (n : Nat) (bytes : List Byte) (k : Nat) (h : bytes.length ≤ n) :
    (arrayOfBytes n bytes).toList.getD k 0#8 = bytes.getD k 0#8 := by
  rw [arrayOfBytes_toList]
  simp only [List.getD_eq_getElem?_getD, List.getElem?_take, List.getElem?_append, List.getElem?_replicate]
  split_ifs <;> simp_all
  all_goals first | omega | (rw [List.getElem?_eq_none (by omega)]; rfl)

theorem be_lt (A : Block) : be A < 2 ^ (8 * blockBytes) := by
  have h := beList_lt A.toList
  rw [Vector.length_toList] at h
  calc be A < 256 ^ blockBytes := h
    _ = 2 ^ (8 * blockBytes) := by decide

end Sys2Proof.Machine
end

