-- ==== Sys2Proof/Laws/State.lean ====
section
/-! SUPPORT. What each named update of the state does to each field, so that no proof unfolds a record update. -/

namespace Sys2Proof.Machine

@[simp] theorem fsReset_fs (s : State) : (fsReset s).fs = initFS s.iv := rfl
@[simp] theorem fsReset_mode (s : State) : (fsReset s).mode = s.mode := rfl
@[simp] theorem fsReset_cb (s : State) : (fsReset s).cb = s.cb := rfl
@[simp] theorem fsReset_key (s : State) : (fsReset s).key = s.key := rfl
@[simp] theorem fsReset_keyLen (s : State) : (fsReset s).keyLen = s.keyLen := rfl
@[simp] theorem fsReset_iv (s : State) : (fsReset s).iv = s.iv := rfl
@[simp] theorem fsReset_ivv (s : State) : (fsReset s).ivv = s.ivv := rfl
@[simp] theorem fsReset_err (s : State) : (fsReset s).err = s.err := rfl
@[simp] theorem fsReset_fault (s : State) : (fsReset s).fault = s.fault := rfl
@[simp] theorem fsReset_progress (s : State) : (fsReset s).progress = s.progress := rfl
@[simp] theorem fsReset_cmd (s : State) : (fsReset s).cmd = s.cmd := rfl
@[simp] theorem fsReset_din (s : State) : (fsReset s).din = s.din := rfl
@[simp] theorem fsReset_dout (s : State) : (fsReset s).dout = s.dout := rfl
@[simp] theorem fsReset_rst (s : State) : (fsReset s).rst = s.rst := rfl
@[simp] theorem fsReset_draws (s : State) : (fsReset s).draws = s.draws := rfl

@[simp] theorem writeKey_fs (d : List Byte) (s : State) : (writeKey d s).fs = s.fs := rfl
@[simp] theorem writeKey_mode (d : List Byte) (s : State) : (writeKey d s).mode = s.mode := rfl
@[simp] theorem writeKey_cb (d : List Byte) (s : State) : (writeKey d s).cb = s.cb := rfl
@[simp] theorem writeKey_key (d : List Byte) (s : State) : (writeKey d s).key = keyOfBytes d := rfl
@[simp] theorem writeKey_keyLen (d : List Byte) (s : State) : (writeKey d s).keyLen = keyLenOf d.length := rfl
@[simp] theorem writeKey_iv (d : List Byte) (s : State) : (writeKey d s).iv = s.iv := rfl
@[simp] theorem writeKey_ivv (d : List Byte) (s : State) : (writeKey d s).ivv = s.ivv := rfl
@[simp] theorem writeKey_err (d : List Byte) (s : State) : (writeKey d s).err = s.err := rfl
@[simp] theorem writeKey_fault (d : List Byte) (s : State) : (writeKey d s).fault = s.fault := rfl
@[simp] theorem writeKey_progress (d : List Byte) (s : State) : (writeKey d s).progress = s.progress := rfl
@[simp] theorem writeKey_cmd (d : List Byte) (s : State) : (writeKey d s).cmd = s.cmd := rfl
@[simp] theorem writeKey_din (d : List Byte) (s : State) : (writeKey d s).din = s.din := rfl
@[simp] theorem writeKey_dout (d : List Byte) (s : State) : (writeKey d s).dout = s.dout := rfl
@[simp] theorem writeKey_rst (d : List Byte) (s : State) : (writeKey d s).rst = s.rst := rfl
@[simp] theorem writeKey_draws (d : List Byte) (s : State) : (writeKey d s).draws = s.draws := rfl

@[simp] theorem writeIv_fs (d : List Byte) (s : State) : (writeIv d s).fs = s.fs := rfl
@[simp] theorem writeIv_mode (d : List Byte) (s : State) : (writeIv d s).mode = s.mode := rfl
@[simp] theorem writeIv_cb (d : List Byte) (s : State) : (writeIv d s).cb = s.cb := rfl
@[simp] theorem writeIv_key (d : List Byte) (s : State) : (writeIv d s).key = s.key := rfl
@[simp] theorem writeIv_keyLen (d : List Byte) (s : State) : (writeIv d s).keyLen = s.keyLen := rfl
@[simp] theorem writeIv_iv (d : List Byte) (s : State) : (writeIv d s).iv = blockOfBytes d := rfl
@[simp] theorem writeIv_ivv (d : List Byte) (s : State) : (writeIv d s).ivv = true := rfl
@[simp] theorem writeIv_err (d : List Byte) (s : State) : (writeIv d s).err = s.err := rfl
@[simp] theorem writeIv_fault (d : List Byte) (s : State) : (writeIv d s).fault = s.fault := rfl
@[simp] theorem writeIv_progress (d : List Byte) (s : State) : (writeIv d s).progress = s.progress := rfl
@[simp] theorem writeIv_cmd (d : List Byte) (s : State) : (writeIv d s).cmd = s.cmd := rfl
@[simp] theorem writeIv_din (d : List Byte) (s : State) : (writeIv d s).din = s.din := rfl
@[simp] theorem writeIv_dout (d : List Byte) (s : State) : (writeIv d s).dout = s.dout := rfl
@[simp] theorem writeIv_rst (d : List Byte) (s : State) : (writeIv d s).rst = s.rst := rfl
@[simp] theorem writeIv_draws (d : List Byte) (s : State) : (writeIv d s).draws = s.draws := rfl

@[simp] theorem popPresent_fs (n : Nat) (s : State) : (popPresent n s).fs = s.fs := rfl
@[simp] theorem popPresent_mode (n : Nat) (s : State) : (popPresent n s).mode = s.mode := rfl
@[simp] theorem popPresent_cb (n : Nat) (s : State) : (popPresent n s).cb = s.cb := rfl
@[simp] theorem popPresent_key (n : Nat) (s : State) : (popPresent n s).key = s.key := rfl
@[simp] theorem popPresent_keyLen (n : Nat) (s : State) : (popPresent n s).keyLen = s.keyLen := rfl
@[simp] theorem popPresent_iv (n : Nat) (s : State) : (popPresent n s).iv = s.iv := rfl
@[simp] theorem popPresent_ivv (n : Nat) (s : State) : (popPresent n s).ivv = s.ivv := rfl
@[simp] theorem popPresent_err (n : Nat) (s : State) : (popPresent n s).err = s.err := rfl
@[simp] theorem popPresent_fault (n : Nat) (s : State) : (popPresent n s).fault = s.fault := rfl
@[simp] theorem popPresent_progress (n : Nat) (s : State) : (popPresent n s).progress = s.progress := rfl
@[simp] theorem popPresent_cmd (n : Nat) (s : State) : (popPresent n s).cmd = s.cmd := rfl
@[simp] theorem popPresent_din (n : Nat) (s : State) : (popPresent n s).din = s.din.drop n := rfl
@[simp] theorem popPresent_dout (n : Nat) (s : State) : (popPresent n s).dout = s.dout := rfl
@[simp] theorem popPresent_rst (n : Nat) (s : State) : (popPresent n s).rst = s.rst := rfl
@[simp] theorem popPresent_draws (n : Nat) (s : State) : (popPresent n s).draws = s.draws := rfl

@[simp] theorem status_fs (c : ErrCode) (s : State) : (status c s).fs = s.fs := rfl
@[simp] theorem status_mode (c : ErrCode) (s : State) : (status c s).mode = s.mode := rfl
@[simp] theorem status_cb (c : ErrCode) (s : State) : (status c s).cb = s.cb := rfl
@[simp] theorem status_key (c : ErrCode) (s : State) : (status c s).key = s.key := rfl
@[simp] theorem status_keyLen (c : ErrCode) (s : State) : (status c s).keyLen = s.keyLen := rfl
@[simp] theorem status_iv (c : ErrCode) (s : State) : (status c s).iv = s.iv := rfl
@[simp] theorem status_ivv (c : ErrCode) (s : State) : (status c s).ivv = s.ivv := rfl
@[simp] theorem status_err (c : ErrCode) (s : State) : (status c s).err = c := rfl
@[simp] theorem status_fault (c : ErrCode) (s : State) : (status c s).fault = s.fault := rfl
@[simp] theorem status_progress (c : ErrCode) (s : State) : (status c s).progress = none := rfl
@[simp] theorem status_cmd (c : ErrCode) (s : State) : (status c s).cmd = s.cmd := rfl
@[simp] theorem status_din (c : ErrCode) (s : State) : (status c s).din = s.din := rfl
@[simp] theorem status_dout (c : ErrCode) (s : State) : (status c s).dout = s.dout := rfl
@[simp] theorem status_rst (c : ErrCode) (s : State) : (status c s).rst = s.rst := rfl
@[simp] theorem status_draws (c : ErrCode) (s : State) : (status c s).draws = s.draws := rfl

@[simp] theorem raiseFault_fs (s : State) : (raiseFault s).fs = s.fs := rfl
@[simp] theorem raiseFault_mode (s : State) : (raiseFault s).mode = s.mode := rfl
@[simp] theorem raiseFault_cb (s : State) : (raiseFault s).cb = s.cb := rfl
@[simp] theorem raiseFault_key (s : State) : (raiseFault s).key = s.key := rfl
@[simp] theorem raiseFault_keyLen (s : State) : (raiseFault s).keyLen = s.keyLen := rfl
@[simp] theorem raiseFault_iv (s : State) : (raiseFault s).iv = s.iv := rfl
@[simp] theorem raiseFault_ivv (s : State) : (raiseFault s).ivv = s.ivv := rfl
@[simp] theorem raiseFault_err (s : State) : (raiseFault s).err = s.err := rfl
@[simp] theorem raiseFault_fault (s : State) : (raiseFault s).fault = true := rfl
@[simp] theorem raiseFault_progress (s : State) : (raiseFault s).progress = s.progress := rfl
@[simp] theorem raiseFault_cmd (s : State) : (raiseFault s).cmd = s.cmd := rfl
@[simp] theorem raiseFault_din (s : State) : (raiseFault s).din = s.din := rfl
@[simp] theorem raiseFault_dout (s : State) : (raiseFault s).dout = s.dout := rfl
@[simp] theorem raiseFault_rst (s : State) : (raiseFault s).rst = s.rst := rfl
@[simp] theorem raiseFault_draws (s : State) : (raiseFault s).draws = s.draws := rfl


/-- `status` when no command is in progress. -/
theorem status_of_idle {s : State} (h : s.progress = none) (c : ErrCode) : status c s = { s with err := c } := by
  unfold status
  rw [← h]

@[simp] theorem initFS_cur (iv : Block) : (initFS iv).cur = 0#4 := rfl
@[simp] theorem initFS_ks (iv : Block) : (initFS iv).ks = zeroBlock := rfl
@[simp] theorem initFS_reg (iv : Block) : (initFS iv).reg = iv := rfl

end Sys2Proof.Machine
end

