-- ==== Sys2Proof/Laws/Stream.lean ====
section
/-! SUPPORT. What the byte step, its fold over a stream, `DoutPush` and the loop of Process do, said once. -/

namespace Sys2Proof.Machine

/-- CUR is in 0..B-1 by its width (R23), so R155's check never fires. -/
theorem cur_lt (S : FeedbackState) : S.cur.toNat < blockBytes := S.cur.isLt

/-- The byte step always completes (R154), with R102's state and output byte. -/
theorem byteStep_eq (E : List Byte → Block → Block) (mode : Mode) (key : List Byte) (dir : Direction)
    (S : FeedbackState) (x : Byte) :
    byteStep E mode key dir S x =
      some (finishByte mode (keepByte mode dir x (x ^^^ byteAt (beginBlock E key S).ks (beginBlock E key S).cur)
        (beginBlock E key S)), x ^^^ byteAt (beginBlock E key S).ks (beginBlock E key S).cur) := by
  have h : ¬ S.cur.toNat ≥ blockBytes := Nat.not_le.mpr (cur_lt S)
  rw [byteStep, if_neg h]

@[simp] theorem beginBlock_cur (E : List Byte → Block → Block) (key : List Byte) (S : FeedbackState) :
    (beginBlock E key S).cur = S.cur := by
  unfold beginBlock
  split <;> rfl

@[simp] theorem beginBlock_reg (E : List Byte → Block → Block) (key : List Byte) (S : FeedbackState) :
    (beginBlock E key S).reg = S.reg := by
  unfold beginBlock
  split <;> rfl

@[simp] theorem keepByte_cur (mode : Mode) (dir : Direction) (x y : Byte) (S : FeedbackState) :
    (keepByte mode dir x y S).cur = S.cur := by
  cases mode <;> cases dir <;> rfl

@[simp] theorem keepByte_reg (mode : Mode) (dir : Direction) (x y : Byte) (S : FeedbackState) :
    (keepByte mode dir x y S).reg = S.reg := by
  cases mode <;> cases dir <;> rfl

/-- After a byte is used the cursor is 0 only at block completion, so the FS invariant holds (R25, R108). -/
theorem finishByte_ok (mode : Mode) (S : FeedbackState) : (finishByte mode S).Ok := by
  unfold finishByte
  split
  · intro _
    rfl
  · rename_i hne
    intro h0
    exfalso
    have hlt := cur_lt S
    have hne' : S.cur.toNat ≠ 15 := hne
    have h1 := congrArg BitVec.toNat h0
    simp only [BitVec.toNat_add, BitVec.toNat_ofNat] at h1
    omega

theorem nextReg_ctr (S : FeedbackState) :
    nextReg .ctr S = beBytes ((be S.reg + 1) % 2 ^ (8 * blockBytes)) := rfl

@[simp] theorem nextReg_ofb (S : FeedbackState) : nextReg .ofb S = S.ks := rfl
@[simp] theorem nextReg_cfb (S : FeedbackState) : nextReg .cfb S = S.ks := rfl

/-- The byte step on a block's last byte completes the block (R105 to R108). -/
theorem byteStep_last (E : List Byte → Block → Block) (mode : Mode) (key : List Byte) (dir : Direction)
    (S : FeedbackState) (x : Byte) (h : S.cur = 15#4) :
    byteStep E mode key dir S x = some
      (⟨nextReg mode (keepByte mode dir x (x ^^^ byteAt (beginBlock E key S).ks (beginBlock E key S).cur)
          (beginBlock E key S)), zeroBlock, 0#4⟩,
        x ^^^ byteAt (beginBlock E key S).ks (beginBlock E key S).cur) := by
  have h15 : (keepByte mode dir x (x ^^^ byteAt (beginBlock E key S).ks (beginBlock E key S).cur)
      (beginBlock E key S)).cur.toNat = blockBytes - 1 := by
    rw [keepByte_cur, beginBlock_cur, h]
    rfl
  rw [byteStep_eq, finishByte, if_pos h15]

/-- The byte step on any other byte moves the cursor on and leaves REG alone (R108, R109). -/
theorem byteStep_inside (E : List Byte → Block → Block) (mode : Mode) (key : List Byte) (dir : Direction)
    (S : FeedbackState) (x : Byte) (h : S.cur.toNat < 15) :
    byteStep E mode key dir S x = some
      (⟨S.reg, (keepByte mode dir x (x ^^^ byteAt (beginBlock E key S).ks (beginBlock E key S).cur)
          (beginBlock E key S)).ks, S.cur + 1#4⟩,
        x ^^^ byteAt (beginBlock E key S).ks (beginBlock E key S).cur) := by
  have h15 : ¬(keepByte mode dir x (x ^^^ byteAt (beginBlock E key S).ks (beginBlock E key S).cur)
      (beginBlock E key S)).cur.toNat = blockBytes - 1 := by
    rw [keepByte_cur, beginBlock_cur]
    exact Nat.ne_of_lt h
  rw [byteStep_eq, finishByte, if_neg h15, keepByte_reg, keepByte_cur, beginBlock_reg, beginBlock_cur]

theorem byteStep_ok {E : List Byte → Block → Block} {mode : Mode} {key : List Byte} {dir : Direction}
    {S S' : FeedbackState} {x y : Byte} (h : byteStep E mode key dir S x = some (S', y)) : S'.Ok := by
  rw [byteStep_eq, Option.some.injEq, Prod.mk.injEq] at h
  rw [← h.1]
  exact finishByte_ok _ _

theorem byteFold_cons (E : List Byte → Block → Block) (mode : Mode) (key : List Byte) (dir : Direction)
    {S S₁ S₂ : FeedbackState} {x y : Byte} {xs ys : List Byte} (h₁ : byteStep E mode key dir S x = some (S₁, y))
    (h₂ : byteFold E mode key dir S₁ xs = some (S₂, ys)) :
    byteFold E mode key dir S (x :: xs) = some (S₂, y :: ys) := by
  simp only [byteFold, h₁, h₂]

/-- The fold of byte steps always completes, with one output byte for each input byte (R115, R154). -/
theorem byteFold_completes (E : List Byte → Block → Block) (mode : Mode) (key : List Byte) (dir : Direction)
    (S : FeedbackState) (xs : List Byte) :
    ∃ S' ys, byteFold E mode key dir S xs = some (S', ys) ∧ ys.length = xs.length := by
  induction xs generalizing S with
  | nil => exact ⟨S, [], rfl, rfl⟩
  | cons x xs ih =>
    obtain ⟨S₂, ys, h, hlen⟩ := ih (finishByte mode (keepByte mode dir x
      (x ^^^ byteAt (beginBlock E key S).ks (beginBlock E key S).cur) (beginBlock E key S)))
    exact ⟨S₂, _ :: ys, byteFold_cons E mode key dir (byteStep_eq E mode key dir S x) h, by simp [hlen]⟩

theorem byteFold_length {E : List Byte → Block → Block} {mode : Mode} {key : List Byte} {dir : Direction}
    {S S' : FeedbackState} {xs ys : List Byte} (h : byteFold E mode key dir S xs = some (S', ys)) :
    ys.length = xs.length := by
  obtain ⟨S₂, zs, h₂, hlen⟩ := byteFold_completes E mode key dir S xs
  rw [h] at h₂
  simp only [Option.some.injEq, Prod.mk.injEq] at h₂
  rw [h₂.2, hlen]

/-- Folding over a concatenation is folding over its parts in turn. -/
theorem byteFold_append (E : List Byte → Block → Block) (mode : Mode) (key : List Byte) (dir : Direction)
    {S S₁ S₂ : FeedbackState} {xs zs ys ws : List Byte} (h₁ : byteFold E mode key dir S xs = some (S₁, ys))
    (h₂ : byteFold E mode key dir S₁ zs = some (S₂, ws)) :
    byteFold E mode key dir S (xs ++ zs) = some (S₂, ys ++ ws) := by
  induction xs generalizing S ys with
  | nil =>
    simp only [byteFold, Option.some.injEq, Prod.mk.injEq] at h₁
    rw [List.nil_append, h₁.1, h₂, ← h₁.2, List.nil_append]
  | cons x xs ih =>
    obtain ⟨S₃, vs, h₃, -⟩ := byteFold_completes E mode key dir (finishByte mode (keepByte mode dir x
      (x ^^^ byteAt (beginBlock E key S).ks (beginBlock E key S).cur) (beginBlock E key S))) xs
    have h₁' := byteFold_cons E mode key dir (byteStep_eq E mode key dir S x) h₃
    rw [h₁, Option.some.injEq, Prod.mk.injEq] at h₁'
    obtain ⟨rfl, rfl⟩ := h₁'
    rw [List.cons_append, List.cons_append]
    exact byteFold_cons E mode key dir (byteStep_eq E mode key dir S x) (ih h₃)

theorem byteFold_ok {E : List Byte → Block → Block} {mode : Mode} {key : List Byte} {dir : Direction}
    {S S' : FeedbackState} {xs ys : List Byte} (hS : S.Ok) (h : byteFold E mode key dir S xs = some (S', ys)) :
    S'.Ok := by
  induction xs generalizing S ys with
  | nil =>
    simp only [byteFold, Option.some.injEq, Prod.mk.injEq] at h
    rw [← h.1]
    exact hS
  | cons x xs ih =>
    simp only [byteFold, byteStep_eq] at h
    split at h
    · exact absurd h (by simp)
    · rename_i hfold
      simp only [Option.some.injEq, Prod.mk.injEq] at h
      obtain ⟨rfl, rfl⟩ := h
      exact ih (finishByte_ok _ _) hfold

/-- The cursor after a fold: one place on for each byte, modulo B (R108). -/
theorem byteFold_cur {E : List Byte → Block → Block} {mode : Mode} {key : List Byte} {dir : Direction}
    {S S' : FeedbackState} {xs ys : List Byte} (h : byteFold E mode key dir S xs = some (S', ys)) :
    S'.cur.toNat = (S.cur.toNat + xs.length) % 16 := by
  induction xs generalizing S ys with
  | nil =>
    simp only [byteFold, Option.some.injEq, Prod.mk.injEq] at h
    have hlt : S.cur.toNat < 16 := cur_lt S
    rw [← h.1, List.length_nil]
    omega
  | cons x xs ih =>
    have hlt : S.cur.toNat < 16 := cur_lt S
    simp only [byteFold] at h
    by_cases h15 : S.cur.toNat < 15
    · rw [byteStep_inside E mode key dir S x h15] at h
      simp only at h
      split at h
      · cases h
      · rename_i hrest
        simp only [Option.some.injEq, Prod.mk.injEq] at h
        obtain ⟨rfl, -⟩ := h
        rw [ih hrest]
        simp only [BitVec.toNat_add, BitVec.toNat_ofNat, List.length_cons]
        omega
    · have hc : S.cur = 15#4 := BitVec.eq_of_toNat_eq (by rw [BitVec.toNat_ofNat]; omega)
      rw [byteStep_last E mode key dir S x hc] at h
      simp only at h
      split at h
      · cases h
      · rename_i hrest
        simp only [Option.some.injEq, Prod.mk.injEq] at h
        obtain ⟨rfl, -⟩ := h
        rw [ih hrest, hc]
        simp only [BitVec.toNat_ofNat, List.length_cons]
        omega

/-- With room for all of them, every pending byte is pushed, in order (R54). -/
theorem flush_of_room (depth : Nat) (pending dout : List Byte) (h : dout.length + pending.length ≤ depth) :
    flush depth pending dout = ([], dout ++ pending) := by
  induction pending generalizing dout with
  | nil => simp [flush]
  | cons y ys ih =>
    rw [List.length_cons] at h
    rw [flush, if_pos (by omega), ih (dout ++ [y]) (by simp; omega)]
    simp

/-- A full DOUT takes no byte (R56). -/
theorem flush_of_full (depth : Nat) (pending dout : List Byte) (h : depth ≤ dout.length) :
    flush depth pending dout = (pending, dout) := by
  cases pending with
  | nil => rfl
  | cons y ys => rw [flush, if_neg (by omega)]

/-- What a push of the pending bytes can do: a first part of them goes to DOUT in order, and either none is left or
DOUT is full; a DOUT within its depth stays within it (R56). -/
theorem flush_spec (depth : Nat) (pending dout : List Byte) :
    ∃ pushed rest, pending = pushed ++ rest ∧ flush depth pending dout = (rest, dout ++ pushed) ∧
      (rest = [] ∨ depth ≤ (dout ++ pushed).length) ∧
      (dout.length ≤ depth → (dout ++ pushed).length ≤ depth) := by
  induction pending generalizing dout with
  | nil => exact ⟨[], [], rfl, by simp [flush], .inl rfl, by simp⟩
  | cons y ys ih =>
    by_cases h : dout.length < depth
    · obtain ⟨pushed, rest, h₁, h₂, h₃, h₄⟩ := ih (dout ++ [y])
      refine ⟨y :: pushed, rest, by rw [h₁, List.cons_append], ?_, ?_, ?_⟩
      · rw [flush, if_pos h, h₂]
        simp
      · simpa using h₃
      · intro _
        have := h₄ (by simp; omega)
        simpa using this
    · refine ⟨[], y :: ys, rfl, ?_, .inr (by simp; omega), by simp⟩
      rw [flush, if_neg h]
      simp

/-- A queue of output bytes pushed before more come behind it leaves the same bytes pending as one pushed after. -/
theorem drop_push (room : Nat) (pending more : List Byte) :
    (pending.drop room ++ more).drop (room - pending.length) = (pending ++ more).drop room := by
  rcases Nat.le_total pending.length room with h | h
  · simp [List.drop_append, List.drop_eq_nil_of_le h]
  · simp [List.drop_append, Nat.sub_eq_zero_of_le h]

/-- A queue of output bytes pushed before more come behind it puts the same bytes on DOUT as one pushed after. -/
theorem take_push (room : Nat) (pending more : List Byte) :
    pending.take room ++ (pending.drop room ++ more).take (room - pending.length) = (pending ++ more).take room := by
  rcases Nat.le_total pending.length room with h | h
  · simp [List.take_append, List.drop_eq_nil_of_le h, List.take_of_length_le h]
  · simp [List.take_append, Nat.sub_eq_zero_of_le h]

/-- What a push does: as many of the pending bytes as DOUT has room for go there, in order; the rest stay (R54, R56). -/
theorem flush_eq (depth : Nat) (pending dout : List Byte) :
    flush depth pending dout = (pending.drop (depth - dout.length), dout ++ pending.take (depth - dout.length)) := by
  induction pending generalizing dout with
  | nil => simp [flush]
  | cons y ys ih =>
    by_cases h : dout.length < depth
    · obtain ⟨k, hk⟩ := Nat.exists_eq_succ_of_ne_zero (Nat.sub_ne_zero_of_lt h)
      have hk' : depth - (dout ++ [y]).length = k := by
        rw [List.length_append, List.length_singleton]
        omega
      rw [flush, if_pos h, ih, hk, hk']
      simp
    · rw [flush, if_neg h, Nat.sub_eq_zero_of_le (Nat.not_lt.mp h)]
      simp

/-- Pushing again pushes nothing more. -/
theorem flush_flush (depth : Nat) (pending dout : List Byte) :
    flush depth (flush depth pending dout).1 (flush depth pending dout).2 = flush depth pending dout := by
  have hroom : depth - (dout ++ pending.take (depth - dout.length)).length = depth - dout.length - pending.length := by
    rw [List.length_append, List.length_take]
    omega
  have hdrop := drop_push (depth - dout.length) pending []
  have htake := take_push (depth - dout.length) pending []
  simp only [List.append_nil] at hdrop htake
  simp only [flush_eq, hroom, hdrop, List.append_assoc, htake]

/-- With nothing pending the engine may always pop (R10: every depth is at least 1). -/
@[simp] theorem mayPop_nil (P : Params) : mayPop P [] = true := by
  simp [mayPop, Params.aheadRoom, Params.dinDepth, Params.doutDepth]

theorem mayPop_bounds {P : Params} {pending : List Byte} (h : mayPop P pending = true) :
    pending.length < P.aheadRoom ∧ pending.length < P.dinDepth ∧ pending.length < P.doutDepth := by
  simpa [mayPop, and_assoc] using h

theorem pump_nil (P : Params) (mode : Mode) (key : List Byte) (dir : Direction) (left : Nat) (S : FeedbackState)
    (pending dout : List Byte) :
    pump P mode key dir [] left S pending dout =
      ⟨[], left, S, (flush P.doutDepth pending dout).1, (flush P.doutDepth pending dout).2, false⟩ := by
  rw [pump]

theorem pump_zero (P : Params) (mode : Mode) (key : List Byte) (dir : Direction) (din : List Byte)
    (S : FeedbackState) (pending dout : List Byte) :
    pump P mode key dir din 0 S pending dout =
      ⟨din, 0, S, (flush P.doutDepth pending dout).1, (flush P.doutDepth pending dout).2, false⟩ := by
  cases din <;> rw [pump]

/-- The loop on a byte that it may take: it pushes what is pending, then runs the byte step. -/
theorem pump_cons {P : Params} (mode : Mode) (key : List Byte) (dir : Direction) (x : Byte) (xs : List Byte)
    (left : Nat) {S S₁ : FeedbackState} {y : Byte} (pending dout : List Byte)
    (hstep : byteStep P.E mode key dir S x = some (S₁, y))
    (hpop : mayPop P (flush P.doutDepth pending dout).1 = true) :
    pump P mode key dir (x :: xs) (left + 1) S pending dout =
      pump P mode key dir xs left S₁ ((flush P.doutDepth pending dout).1 ++ [y]) (flush P.doutDepth pending dout).2 := by
  rw [pump]
  simp only [hpop, if_true, hstep]

/-- The loop on a byte that it may not take yet: it waits (R56). -/
theorem pump_cons_wait {P : Params} (mode : Mode) (key : List Byte) (dir : Direction) (x : Byte) (xs : List Byte)
    (left : Nat) (S : FeedbackState) (pending dout : List Byte)
    (hpop : mayPop P (flush P.doutDepth pending dout).1 = false) :
    pump P mode key dir (x :: xs) (left + 1) S pending dout =
      ⟨x :: xs, left + 1, S, (flush P.doutDepth pending dout).1, (flush P.doutDepth pending dout).2, false⟩ := by
  rw [pump]
  simp [hpop]

/-- With room in DOUT for every output byte, the loop takes all the bytes present that it needs: FS is the fold of
the byte steps, the output bytes are pushed in order, nothing stays pending (R54, R64, R112). -/
theorem pump_of_room {P : Params} (mode : Mode) (key : List Byte) (dir : Direction) (din : List Byte) (left : Nat)
    {S S' : FeedbackState} (pending dout : List Byte) {ys : List Byte}
    (hfold : byteFold P.E mode key dir S (din.take left) = some (S', ys))
    (hroom : dout.length + pending.length + (din.take left).length ≤ P.doutDepth) :
    pump P mode key dir din left S pending dout =
      ⟨din.drop left, left - din.length, S', [], dout ++ pending ++ ys, false⟩ := by
  induction din generalizing left S pending dout ys with
  | nil =>
    simp only [List.take_nil, byteFold, Option.some.injEq, Prod.mk.injEq] at hfold
    simp only [List.take_nil, List.length_nil, Nat.add_zero] at hroom
    rw [pump_nil, flush_of_room _ _ _ hroom]
    simp [hfold.1, ← hfold.2]
  | cons x xs ih =>
    cases left with
    | zero =>
      simp only [List.take_zero, byteFold, Option.some.injEq, Prod.mk.injEq] at hfold
      simp only [List.take_zero, List.length_nil, Nat.add_zero] at hroom
      rw [pump_zero, flush_of_room _ _ _ hroom]
      simp [hfold.1, ← hfold.2]
    | succ left =>
      simp only [List.take_succ_cons, List.length_cons] at hfold hroom
      obtain ⟨S₂, vs, h₂, -⟩ := byteFold_completes P.E mode key dir (finishByte mode (keepByte mode dir x
        (x ^^^ byteAt (beginBlock P.E key S).ks (beginBlock P.E key S).cur) (beginBlock P.E key S))) (xs.take left)
      have hstep := byteStep_eq P.E mode key dir S x
      have hcons := byteFold_cons P.E mode key dir hstep h₂
      rw [hfold, Option.some.injEq, Prod.mk.injEq] at hcons
      obtain ⟨rfl, rfl⟩ := hcons
      have hflush := flush_of_room P.doutDepth pending dout (by omega)
      rw [pump_cons mode key dir x xs left pending dout hstep (by rw [hflush]; exact mayPop_nil P), hflush,
        ih left _ _ h₂ (by simp only [List.length_append, List.length_nil, List.length_singleton]; omega)]
      simp

/-- Everything the loop can do, whatever room DOUT has: it takes the first bytes of DIN, as many as `more` is long, and
runs their byte steps; of the pending output bytes and the new ones behind them, in order, the first go to DOUT as far
as it has room and the rest stay pending. It stops only with every byte taken, no byte on DIN, or no room to run ahead
(R54, R55, R56, R64, R112). -/
theorem pump_spec (P : Params) (mode : Mode) (key : List Byte) (dir : Direction) (din : List Byte) (left : Nat)
    (S : FeedbackState) (pending dout : List Byte) :
    ∃ S' more, byteFold P.E mode key dir S (din.take more.length) = some (S', more) ∧ more.length ≤ left ∧
      (more.length = left ∨ din.length = more.length ∨
        mayPop P ((pending ++ more).drop (P.doutDepth - dout.length)) = false) ∧
      pump P mode key dir din left S pending dout =
        ⟨din.drop more.length, left - more.length, S', (pending ++ more).drop (P.doutDepth - dout.length),
          dout ++ (pending ++ more).take (P.doutDepth - dout.length), false⟩ := by
  induction din generalizing left S pending dout with
  | nil => exact ⟨S, [], rfl, Nat.zero_le _, .inr (.inl rfl), by simp [pump_nil, flush_eq]⟩
  | cons x xs ih =>
    cases left with
    | zero => exact ⟨S, [], rfl, Nat.zero_le _, .inl rfl, by simp [pump_zero, flush_eq]⟩
    | succ left =>
      cases hpop : mayPop P (flush P.doutDepth pending dout).1 with
      | false =>
        refine ⟨S, [], rfl, Nat.zero_le _, .inr (.inr (by simpa [flush_eq] using hpop)), ?_⟩
        rw [pump_cons_wait mode key dir x xs left S pending dout hpop]
        simp [flush_eq]
      | true =>
        have hstep := byteStep_eq P.E mode key dir S x
        generalize x ^^^ byteAt (beginBlock P.E key S).ks (beginBlock P.E key S).cur = y at hstep
        generalize finishByte mode (keepByte mode dir x y (beginBlock P.E key S)) = S₁ at hstep
        obtain ⟨S', more, hfold, hle, hstop, heq⟩ := ih left S₁ ((flush P.doutDepth pending dout).1 ++ [y])
          (flush P.doutDepth pending dout).2
        have hroom : P.doutDepth - (dout ++ pending.take (P.doutDepth - dout.length)).length =
            P.doutDepth - dout.length - pending.length := by
          rw [List.length_append, List.length_take]
          omega
        simp only [flush_eq, hroom, List.append_assoc, List.singleton_append, drop_push, take_push] at hstop heq
        refine ⟨S', y :: more, byteFold_cons P.E mode key dir hstep hfold, Nat.succ_le_succ hle,
          hstop.imp (congrArg Nat.succ) (.imp_left (congrArg Nat.succ)), ?_⟩
        rw [pump_cons mode key dir x xs left pending dout hstep hpop]
        simp only [flush_eq, heq]
        simp

/-- What the loop has pushed already may be pushed first. -/
theorem pump_flush (P : Params) (mode : Mode) (key : List Byte) (dir : Direction) (din : List Byte) (left : Nat)
    (S : FeedbackState) (pending dout : List Byte) :
    pump P mode key dir din left S (flush P.doutDepth pending dout).1 (flush P.doutDepth pending dout).2 =
      pump P mode key dir din left S pending dout := by
  have h := flush_flush P.doutDepth pending dout
  cases din with
  | nil => rw [pump_nil, pump_nil, h]
  | cons x xs =>
    cases left with
    | zero => rw [pump_zero, pump_zero, h]
    | succ left => rw [pump, pump, h]

/-- Bytes that come later: the loop on the first part, then on what it left with the second part behind, is the loop on
both at once; it counts down by the bytes it takes (R55, R61). -/
theorem pump_append (P : Params) (mode : Mode) (key : List Byte) (dir : Direction) (a b : List Byte) (left : Nat)
    (S : FeedbackState) (pending dout : List Byte) :
    let r := pump P mode key dir a left S pending dout
    pump P mode key dir (r.din ++ b) r.left r.fs r.pending r.dout = pump P mode key dir (a ++ b) left S pending dout ∧
      r.left + a.length = left + r.din.length := by
  induction a generalizing left S pending dout with
  | nil =>
    rw [pump_nil]
    exact ⟨pump_flush P mode key dir b left S pending dout, rfl⟩
  | cons x xs ih =>
    cases left with
    | zero =>
      rw [pump_zero]
      exact ⟨pump_flush P mode key dir (x :: xs ++ b) 0 S pending dout, rfl⟩
    | succ left =>
      cases hpop : mayPop P (flush P.doutDepth pending dout).1 with
      | false =>
        rw [pump_cons_wait mode key dir x xs left S pending dout hpop]
        exact ⟨pump_flush P mode key dir (x :: xs ++ b) (left + 1) S pending dout, rfl⟩
      | true =>
        have hstep := byteStep_eq P.E mode key dir S x
        generalize x ^^^ byteAt (beginBlock P.E key S).ks (beginBlock P.E key S).cur = y at hstep
        generalize finishByte mode (keepByte mode dir x y (beginBlock P.E key S)) = S₁ at hstep
        obtain ⟨hrest, hcount⟩ := ih left S₁ ((flush P.doutDepth pending dout).1 ++ [y])
          (flush P.doutDepth pending dout).2
        rw [pump_cons mode key dir x xs left pending dout hstep hpop, List.cons_append,
          pump_cons mode key dir x (xs ++ b) left pending dout hstep hpop]
        refine ⟨hrest, ?_⟩
        rw [List.length_cons]
        omega

/-- What the loop keeps, wherever it stops: no fault; DIN only shrinks; the bytes still to take and the pending ones
do not grow in number; the pending bytes stay within their bounds and DOUT within its depth; the FS invariant
holds (R25, R56, R64, R154). -/
theorem pump_keeps (P : Params) (mode : Mode) (key : List Byte) (dir : Direction) (din : List Byte) (left : Nat)
    (S : FeedbackState) (pending dout : List Byte) :
    (pump P mode key dir din left S pending dout).faulted = false ∧
    (pump P mode key dir din left S pending dout).din.length ≤ din.length ∧
    (pump P mode key dir din left S pending dout).left + (pump P mode key dir din left S pending dout).pending.length
      ≤ left + pending.length ∧
    ((pending.length ≤ P.aheadRoom ∧ pending.length ≤ P.dinDepth ∧ pending.length ≤ P.doutDepth) →
      (pump P mode key dir din left S pending dout).pending.length ≤ P.aheadRoom ∧
      (pump P mode key dir din left S pending dout).pending.length ≤ P.dinDepth ∧
      (pump P mode key dir din left S pending dout).pending.length ≤ P.doutDepth) ∧
    (dout.length ≤ P.doutDepth → (pump P mode key dir din left S pending dout).dout.length ≤ P.doutDepth) ∧
    (S.Ok → (pump P mode key dir din left S pending dout).fs.Ok) := by
  induction din generalizing left S pending dout with
  | nil =>
    obtain ⟨pushed, rest, h₁, h₂, -, h₄⟩ := flush_spec P.doutDepth pending dout
    have hlen := congrArg List.length h₁
    rw [List.length_append] at hlen
    rw [pump_nil, h₂]
    exact ⟨rfl, le_refl _, by dsimp only; omega, by dsimp only; omega, h₄, id⟩
  | cons x xs ih =>
    obtain ⟨pushed, rest, h₁, h₂, -, h₄⟩ := flush_spec P.doutDepth pending dout
    have hlen := congrArg List.length h₁
    rw [List.length_append] at hlen
    cases left with
    | zero =>
      rw [pump_zero, h₂]
      exact ⟨rfl, le_refl _, by dsimp only; omega, by dsimp only; omega, h₄, id⟩
    | succ left =>
      cases hpop : mayPop P (flush P.doutDepth pending dout).1 with
      | false =>
        rw [pump_cons_wait mode key dir x xs left S pending dout hpop, h₂]
        exact ⟨rfl, le_refl _, by dsimp only; omega, by dsimp only; omega, h₄, id⟩
      | true =>
        rw [pump_cons mode key dir x xs left pending dout (byteStep_eq P.E mode key dir S x) hpop]
        have hb := mayPop_bounds hpop
        rw [h₂] at hb ⊢
        simp only at hb ⊢
        generalize x ^^^ byteAt (beginBlock P.E key S).ks (beginBlock P.E key S).cur = y
        obtain ⟨i₁, i₂, i₃, i₄, i₅, i₆⟩ := ih left (finishByte mode (keepByte mode dir x y (beginBlock P.E key S)))
          (rest ++ [y]) (dout ++ pushed)
        rw [List.length_append, List.length_singleton] at i₃ i₄
        refine ⟨i₁, ?_, by omega, fun _ => i₄ ⟨by omega, by omega, by omega⟩, fun hd => i₅ (h₄ hd), fun _ => i₆ (finishByte_ok _ _)⟩
        rw [List.length_cons]
        omega

end Sys2Proof.Machine
end

