-- ==== Sys2Proof/Laws/Commands.lean ====
section
/-! SUPPORT. What a command in progress can do: what it leaves alone wherever it stops, and where it ends once its
payload is there. -/

namespace Sys2Proof.Machine

theorem checkProcess_ok (s : State) : checkProcess s = .ok ↔ s.Ready := by
  unfold checkProcess State.Ready
  split
  · simp_all
  · split
    · simp_all
    · split <;> simp_all

/-- A call goes on without a fault branch: no byte step is the invariant violation (R154). -/
theorem advanceProcess_eq (P : Params) (p : Progress) (dir : Direction) (work : Work) (pending : List Byte)
    (s : State) :
    advanceProcess P p dir work pending s =
      let r := pump P s.mode (keyInUse s) dir s.din p.left (work.read s.fs) pending s.dout
      let moved := { s with din := r.din, dout := r.dout, fs := work.fsAfter s.fs r.fs }
      if r.left = 0 ∧ r.pending = [] then status .ok moved
      else { moved with progress := some { p with left := r.left, task := .process dir (work.after r.fs) r.pending } } := by
  have h := (pump_keeps P s.mode (keyInUse s) dir s.din p.left (work.read s.fs) pending s.dout).1
  simp only [advanceProcess, h, Bool.false_eq_true, if_false]

/-- A command in progress changes nothing but FS, KEY, KEYLEN, IV, IVV, STATUS.ERR, the in-progress record, DIN and
DOUT; in particular it never faults (R154). -/
theorem advance_keeps (P : Params) (p : Progress) (s : State) :
    (advance P p s).mode = s.mode ∧ (advance P p s).cb = s.cb ∧ (advance P p s).fault = s.fault ∧
    (advance P p s).cmd = s.cmd ∧ (advance P p s).rst = s.rst ∧ (advance P p s).draws = s.draws := by
  obtain ⟨w, n, task⟩ := p
  cases task with
  | process dir work pending =>
    simp only [advance, advanceProcess_eq]
    split <;> simp
  | loadKey got =>
    simp only [advance, advanceLoadKey]
    split <;> simp
  | loadIv got =>
    simp only [advance, advanceLoadIv]
    split <;> simp
  | drain code =>
    simp only [advance, advanceDrain]
    split <;> simp

/-- A command that is not a call with CB = 1 and not an accepted SETKEY or SETIV leaves FS alone (R138). -/
theorem advance_fs (P : Params) (p : Progress) (s : State)
    (h : ∀ dir pending, p.task ≠ .process dir .live pending) (hk : ∀ got, p.task ≠ .loadKey got)
    (hi : ∀ got, p.task ≠ .loadIv got) : (advance P p s).fs = s.fs := by
  obtain ⟨w, n, task⟩ := p
  cases task with
  | process dir work pending =>
    cases work with
    | live => exact absurd rfl (h dir pending)
    | copy W =>
      simp only [advance, advanceProcess_eq, Work.fsAfter]
      split <;> simp
  | loadKey got => exact absurd rfl (hk got)
  | loadIv got => exact absurd rfl (hi got)
  | drain code =>
    simp only [advance, advanceDrain]
    split <;> simp

/-- Only an accepted SETKEY writes KEY and KEYLEN (R28). -/
theorem advance_key (P : Params) (p : Progress) (s : State) (hk : ∀ got, p.task ≠ .loadKey got) :
    (advance P p s).key = s.key ∧ (advance P p s).keyLen = s.keyLen := by
  obtain ⟨w, n, task⟩ := p
  cases task with
  | process dir work pending =>
    simp only [advance, advanceProcess_eq]
    split <;> simp
  | loadKey got => exact absurd rfl (hk got)
  | loadIv got =>
    simp only [advance, advanceLoadIv]
    split <;> simp
  | drain code =>
    simp only [advance, advanceDrain]
    split <;> simp

/-- Only an accepted SETIV writes IV and IVV (R29). -/
theorem advance_iv (P : Params) (p : Progress) (s : State) (hi : ∀ got, p.task ≠ .loadIv got) :
    (advance P p s).iv = s.iv ∧ (advance P p s).ivv = s.ivv := by
  obtain ⟨w, n, task⟩ := p
  cases task with
  | process dir work pending =>
    simp only [advance, advanceProcess_eq]
    split <;> simp
  | loadKey got =>
    simp only [advance, advanceLoadKey]
    split <;> simp
  | loadIv got => exact absurd rfl (hi got)
  | drain code =>
    simp only [advance, advanceDrain]
    split <;> simp

/-- Only a call moves DOUT (R58, R59). -/
theorem advance_dout (P : Params) (p : Progress) (s : State) (h : ∀ dir work pending, p.task ≠ .process dir work pending) :
    (advance P p s).dout = s.dout := by
  obtain ⟨w, n, task⟩ := p
  cases task with
  | process dir work pending => exact absurd rfl (h dir work pending)
  | loadKey got =>
    simp only [advance, advanceLoadKey]
    split <;> simp
  | loadIv got =>
    simp only [advance, advanceLoadIv]
    split <;> simp
  | drain code =>
    simp only [advance, advanceDrain]
    split <;> simp

/-- A rejected command whose payload is on DIN drains it and reports its code, and does nothing else (R152). -/
theorem rejectCommand_supplied (P : Params) (w : Word) (n : Nat) (code : ErrCode) (s : State)
    (h : n ≤ s.din.length) : rejectCommand P w n code s = status code (popPresent n s) := by
  have hz : n - s.din.length = 0 := Nat.sub_eq_zero_of_le h
  simp [rejectCommand, advance, advanceDrain, hz]

/-- A call with its payload on DIN and room in DOUT completes: the fold of the byte steps over its payload, from FS or
from InitFS(), FS written only with CB = 1 (R112). -/
theorem processCommand_supplied (P : Params) (w : Word) (dir : Direction) (n : Nat) (s : State) (hready : s.Ready)
    (hdin : n ≤ s.din.length) (hroom : s.dout.length + n ≤ P.doutDepth) {S' : FeedbackState} {ys : List Byte}
    (hfold : byteFold P.E s.mode (keyInUse s) dir (callStart s) (s.din.take n) = some (S', ys)) :
    processCommand P w dir n s =
      status .ok { s with din := s.din.drop n, dout := s.dout ++ ys, fs := if s.cb then S' else s.fs } := by
  have hc := (checkProcess_ok s).mpr hready
  have hstart : (startWork s).read s.fs = callStart s := by
    unfold startWork callStart
    split <;> rfl
  have hafter : (startWork s).fsAfter s.fs S' = if s.cb then S' else s.fs := by
    unfold startWork
    split <;> rfl
  have hlen : (s.din.take n).length = n := by simp [hdin]
  have hp := pump_of_room (P := P) s.mode (keyInUse s) dir s.din n [] s.dout hfold (by simpa [hlen] using hroom)
  have hz : n - s.din.length = 0 := Nat.sub_eq_zero_of_le hdin
  simp only [processCommand, hc, advance, advanceProcess_eq, hstart, hp, hz, hafter, List.append_nil, and_self,
    if_true]

/-- A call in either direction is `Process` (R113, R114). -/
theorem exec_callOf (dir : Direction) (n : Nat) (s : State) :
    exec (callOf dir n) s = .next (processCommand Config.params (encode (callOf dir n)) dir n s) := by
  cases dir <;> rfl

/-- A call that its checks reject is a rejected command with the code of the first failing check (R121, R122). -/
theorem processCommand_rejected (P : Params) (w : Word) (dir : Direction) (n : Nat) (s : State)
    (h : checkProcess s ≠ .ok) : processCommand P w dir n s = rejectCommand P w n (checkProcess s) s := by
  unfold processCommand
  split
  · rename_i hok
    exact absurd hok h
  · rfl

end Sys2Proof.Machine
end

