-- ==== Sys2Proof/Laws/Encoding.lean ====
section
/-! SUPPORT. The fields of an assembled word, and where the decoder's tests send it. -/

namespace Sys2Proof

theorem opField_toNat (w : Word) : (opField w).toNat = w.toNat % 16 := by
  simp [opField, BitVec.extractLsb'_toNat]

theorem modeField_toNat (w : Word) : (modeField w).toNat = w.toNat / 16 % 4 := by
  simp [modeField, BitVec.extractLsb'_toNat, Nat.shiftRight_eq_div_pow]

theorem rsvField_toNat (w : Word) : (rsvField w).toNat = w.toNat / 64 % 4 := by
  simp [rsvField, BitVec.extractLsb'_toNat, Nat.shiftRight_eq_div_pow]

theorem lenField_toNat (w : Word) : (lenField w).toNat = w.toNat / 256 := by
  have := w.isLt
  simp [lenField, BitVec.extractLsb'_toNat, Nat.shiftRight_eq_div_pow]
  omega

theorem otherField_toNat (w : Word) : (otherField w).toNat = w.toNat / 16 := by
  have := w.isLt
  simp [otherField, BitVec.extractLsb'_toNat, Nat.shiftRight_eq_div_pow]
  omega

theorem append_toNat {m n : Nat} (x : BitVec m) (y : BitVec n) : (x ++ y).toNat = 2 ^ n * x.toNat + y.toNat := by
  rw [BitVec.toNat_append, Nat.shiftLeft_eq, Nat.mul_comm, Nat.two_pow_add_eq_or_of_lt y.isLt]

/-- `OP | MODEF << 4 | LEN << 8` (R81), as a number. -/
theorem assemble_toNat (op : BitVec 4) (m : BitVec 2) (len : BitVec 24) :
    (assemble op m len).toNat = op.toNat + 16 * m.toNat + 256 * len.toNat := by
  simp only [assemble, append_toNat, BitVec.toNat_ofNat]
  omega

theorem otherWord_toNat (other : BitVec 28) (op : BitVec 4) :
    (show Word from other ++ op).toNat = 16 * other.toNat + op.toNat := by
  simp only [append_toNat]
  omega

@[simp] theorem opField_assemble (op : BitVec 4) (m : BitVec 2) (len : BitVec 24) :
    opField (assemble op m len) = op := by
  apply BitVec.eq_of_toNat_eq
  have := op.isLt
  have := m.isLt
  rw [opField_toNat, assemble_toNat]
  omega

@[simp] theorem modeField_assemble (op : BitVec 4) (m : BitVec 2) (len : BitVec 24) :
    modeField (assemble op m len) = m := by
  apply BitVec.eq_of_toNat_eq
  have := op.isLt
  have := m.isLt
  rw [modeField_toNat, assemble_toNat]
  omega

@[simp] theorem rsvField_assemble (op : BitVec 4) (m : BitVec 2) (len : BitVec 24) :
    rsvField (assemble op m len) = 0#2 := by
  apply BitVec.eq_of_toNat_eq
  have := op.isLt
  have := m.isLt
  rw [rsvField_toNat, assemble_toNat, BitVec.toNat_ofNat]
  omega

@[simp] theorem lenField_assemble (op : BitVec 4) (m : BitVec 2) (len : BitVec 24) :
    lenField (assemble op m len) = len := by
  apply BitVec.eq_of_toNat_eq
  have := op.isLt
  have := m.isLt
  rw [lenField_toNat, assemble_toNat]
  omega

@[simp] theorem opField_other (other : BitVec 28) (op : BitVec 4) : opField (other ++ op) = op := by
  apply BitVec.eq_of_toNat_eq
  have := op.isLt
  rw [opField_toNat, append_toNat]
  omega

@[simp] theorem otherField_other (other : BitVec 28) (op : BitVec 4) : otherField (other ++ op) = other := by
  apply BitVec.eq_of_toNat_eq
  have := op.isLt
  rw [otherField_toNat, append_toNat]
  omega

/-- A word with RSV = 0 is the assembly of its fields (R71, R72). -/
theorem assemble_fields (w : Word) (h : rsvField w = 0#2) :
    assemble (opField w) (modeField w) (lenField w) = w := by
  apply BitVec.eq_of_toNat_eq
  have h := congrArg BitVec.toNat h
  rw [rsvField_toNat, BitVec.toNat_ofNat] at h
  rw [assemble_toNat, opField_toNat, modeField_toNat, lenField_toNat]
  omega

/-- A word is its bits 31:4 and its opcode (R76). -/
theorem other_fields (w : Word) : (otherField w ++ opField w : BitVec (28 + 4)) = w := by
  apply BitVec.eq_of_toNat_eq
  rw [append_toNat, otherField_toNat, opField_toNat]
  omega

/-- Two words are equal exactly when their four fields are (R72). -/
theorem word_eq_iff_fields (w v : Word) :
    w = v ↔ opField w = opField v ∧ modeField w = modeField v ∧ rsvField w = rsvField v ∧ lenField w = lenField v := by
  refine ⟨fun h => h ▸ ⟨rfl, rfl, rfl, rfl⟩, fun ⟨h₁, h₂, h₃, h₄⟩ => BitVec.eq_of_toNat_eq ?_⟩
  have h₁ := congrArg BitVec.toNat h₁
  have h₂ := congrArg BitVec.toNat h₂
  have h₃ := congrArg BitVec.toNat h₃
  have h₄ := congrArg BitVec.toNat h₄
  rw [opField_toNat, opField_toNat] at h₁
  rw [modeField_toNat, modeField_toNat] at h₂
  rw [rsvField_toNat, rsvField_toNat] at h₃
  rw [lenField_toNat, lenField_toNat] at h₄
  omega

theorem opField_and (w m : Word) : opField (w &&& m) = opField w &&& opField m := BitVec.extractLsb'_and
theorem modeField_and (w m : Word) : modeField (w &&& m) = modeField w &&& modeField m := BitVec.extractLsb'_and
theorem rsvField_and (w m : Word) : rsvField (w &&& m) = rsvField w &&& rsvField m := BitVec.extractLsb'_and
theorem lenField_and (w m : Word) : lenField (w &&& m) = lenField w &&& lenField m := BitVec.extractLsb'_and

/-- The decoder on an assembled word with a defined opcode whose reserved fields are zero (R77 test 5). -/
theorem decode_assemble (op : BitVec 4) (m : BitVec 2) (len : BitVec 24)
    (hop : 1 ≤ op.toNat ∧ op.toNat ≤ 9) (hm : m = 0#2 ∨ op = 0x5#4) (hl : len = 0#24 ∨ lenMustBeZero op = false) :
    decode (assemble op m len) = .command (commandOf op m len.toNat) := by
  have h0 : op ≠ 0x0#4 := by rintro rfl; simp at hop
  have hA : ¬(op = 0xA#4 ∨ op = 0xB#4) := by rintro (rfl | rfl) <;> simp at hop
  have hC : ¬ 0xC ≤ op.toNat := by omega
  have hm' : ¬(m ≠ 0#2 ∧ op ≠ 0x5#4) := by rintro ⟨h1, h2⟩; exact hm.elim h1 h2
  have hl' : ¬(len ≠ 0#24 ∧ lenMustBeZero op = true) := by
    rintro ⟨h1, h2⟩
    rcases hl with h | h
    · exact h1 h
    · simp [h] at h2
  simp only [decode, opField_assemble, modeField_assemble, rsvField_assemble, lenField_assemble, if_neg h0, if_neg hA,
    if_neg hC, if_neg hm', if_neg hl', ne_eq, not_true_eq_false, if_false]

end Sys2Proof
end

