-- ==== Sys2Proof/Laws/Exec.lean ====
section
/-! SUPPORT. `exec` taken apart once: a command with a payload is a command in progress that `advance` takes on; any
other command writes its code and its one setting. And what `advance` does once its payload is there. -/

namespace Sys2Proof.Machine

/-- The commands whose words carry a payload count (R57). -/
def takesPayload : Instr → Bool
  | .encrypt _ => true
  | .decrypt _ => true
  | .setkey _ => true
  | .setiv _ => true
  | .setmode _ => false
  | .cbon => false
  | .cboff => false
  | .resetfs => false
  | .setblklen _ => false
  | .reservedZero _ => false
  | .reservedAB _ _ => false
  | .reservedCF _ _ => false

/-- The task a call starts with. -/
def callTask (dir : Direction) (s : State) : Task :=
  if checkProcess s = .ok then .process dir (startWork s) [] else .drain (checkProcess s)

/-- The task a command with a payload starts with, its checks made. -/
def taskOf (i : Instr) (s : State) : Task :=
  match i with
  | .encrypt _ => callTask .enc s
  | .decrypt _ => callTask .dec s
  | .setkey n => if checkKeyLength n = .ok then .loadKey [] else .drain (checkKeyLength n)
  | .setiv n => if checkIvLength n = .ok then .loadIv [] else .drain (checkIvLength n)
  | .setmode _ => .drain .ok
  | .cbon => .drain .ok
  | .cboff => .drain .ok
  | .resetfs => .drain .ok
  | .setblklen _ => .drain .ok
  | .reservedZero _ => .drain .ok
  | .reservedAB _ _ => .drain .ok
  | .reservedCF _ _ => .drain .ok

theorem checkKeyLength_ok {n : Nat} : checkKeyLength n = .ok ↔ n ∈ keyLengths := by
  unfold checkKeyLength
  split <;> simp_all

theorem checkIvLength_ok {n : Nat} : checkIvLength n = .ok ↔ n = blockBytes := by
  unfold checkIvLength
  split <;> simp_all

@[simp] theorem payloadBytes_callOf (dir : Direction) (n : Nat) : (callOf dir n).payloadBytes = n := by
  cases dir <;> rfl

@[simp] theorem takesPayload_callOf (dir : Direction) (n : Nat) : takesPayload (callOf dir n) = true := by
  cases dir <;> rfl

theorem taskOf_callOf (dir : Direction) (n : Nat) (s : State) : taskOf (callOf dir n) s = callTask dir s := by
  cases dir <;> rfl

theorem not_call {i : Instr} (h : takesPayload i = false) : ¬∃ dir n, i = callOf dir n := by
  rintro ⟨dir, n, rfl⟩
  simp at h

/-- A call is a command in progress from its task on (R112). -/
theorem processCommand_eq (P : Params) (w : Word) (dir : Direction) (n : Nat) (s : State) :
    processCommand P w dir n s = advance P ⟨w, n, callTask dir s⟩ s := by
  by_cases h : checkProcess s = .ok
  · simp only [processCommand, callTask, h, if_true]
  · rw [processCommand_rejected P w dir n s h, callTask, if_neg h, rejectCommand]

/-- A command with a payload is a command in progress that goes on with its whole payload to take. -/
theorem exec_payload {i : Instr} (h : takesPayload i = true) (s : State) :
    exec i s = .next (advance Config.params ⟨encode i, i.payloadBytes, taskOf i s⟩ s) := by
  cases i with
  | encrypt n => exact congrArg _ (processCommand_eq Config.params _ .enc n s)
  | decrypt n => exact congrArg _ (processCommand_eq Config.params _ .dec n s)
  | setkey n =>
    by_cases hc : checkKeyLength n = .ok
    · simp only [exec, execSetkey, taskOf, hc, if_true, Instr.payloadBytes]
    · simp only [exec, execSetkey, taskOf, if_neg hc, rejectCommand, Instr.payloadBytes]
  | setiv n =>
    by_cases hc : checkIvLength n = .ok
    · simp only [exec, execSetiv, taskOf, hc, if_true, Instr.payloadBytes]
    · simp only [exec, execSetiv, taskOf, if_neg hc, rejectCommand, Instr.payloadBytes]
  | setmode m => cases h
  | cbon => cases h
  | cboff => cases h
  | resetfs => cases h
  | setblklen v => cases h
  | reservedZero other => cases h
  | reservedAB op other => cases h
  | reservedCF op other => cases h

/-- What a command with a payload starts as: the task says which command it is and what its checks found. -/
theorem taskOf_cases {i : Instr} (h : takesPayload i = true) (s : State) :
    (∃ dir n, i = callOf dir n ∧ s.Ready ∧ taskOf i s = .process dir (startWork s) []) ∨
    (∃ n, i = .setkey n ∧ n ∈ keyLengths ∧ taskOf i s = .loadKey []) ∨
    (i = .setiv blockBytes ∧ taskOf i s = .loadIv []) ∨
    (∃ code, code ≠ .ok ∧ taskOf i s = .drain code) := by
  have call : ∀ dir n, i = callOf dir n →
      (∃ dir n, i = callOf dir n ∧ s.Ready ∧ taskOf i s = .process dir (startWork s) []) ∨
      (∃ code, code ≠ .ok ∧ taskOf i s = .drain code) := by
    rintro dir n rfl
    by_cases hc : checkProcess s = .ok
    · exact .inl ⟨dir, n, rfl, (checkProcess_ok s).mp hc, by rw [taskOf_callOf, callTask, if_pos hc]⟩
    · exact .inr ⟨checkProcess s, hc, by rw [taskOf_callOf, callTask, if_neg hc]⟩
  cases i with
  | encrypt n => exact (call .enc n rfl).elim .inl fun c => .inr (.inr (.inr c))
  | decrypt n => exact (call .dec n rfl).elim .inl fun c => .inr (.inr (.inr c))
  | setkey n =>
    by_cases hc : checkKeyLength n = .ok
    · exact .inr (.inl ⟨n, rfl, checkKeyLength_ok.mp hc, if_pos hc⟩)
    · exact .inr (.inr (.inr ⟨checkKeyLength n, hc, if_neg hc⟩))
  | setiv n =>
    by_cases hc : checkIvLength n = .ok
    · exact .inr (.inr (.inl ⟨congrArg Instr.setiv (checkIvLength_ok.mp hc), if_pos hc⟩))
    · exact .inr (.inr (.inr ⟨checkIvLength n, hc, if_neg hc⟩))
  | setmode m => cases h
  | cbon => cases h
  | cboff => cases h
  | resetfs => cases h
  | setblklen v => cases h
  | reservedZero other => cases h
  | reservedAB op other => cases h
  | reservedCF op other => cases h

/-- What a command without a payload does: it ends with a code over a state that differs in MODE, CB or FS alone. -/
structure ImmediateEffect (i : Instr) (s : State) (code : ErrCode) (t : State) : Prop where
  keeps   : t = { s with fs := t.fs, mode := t.mode, cb := t.cb }
  failed  : code ≠ .ok → t = s
  fsCase  : t.fs = s.fs ∨ (t.fs = initFS s.iv ∧ ((∃ m, i = .setmode m) ∨ i = .resetfs))
  mode    : t.mode = s.mode ∨ (t.mode ≠ .blk ∧ ∃ m, i = .setmode m)
  cbCase  : t.cb = s.cb ∨ i = .cbon ∨ i = .cboff
  setmode : ∀ m, i = .setmode m → code = .ok → streamingMode m = some t.mode ∧ t.fs = initFS s.iv

theorem streamingMode_ne_blk {m : BitVec 2} {mode : Mode} (h : streamingMode m = some mode) : mode ≠ .blk := by
  revert m mode
  decide

/-- A command without a payload completes at once. -/
theorem exec_immediate {i : Instr} (h : takesPayload i = false) (s : State) :
    ∃ code t, exec i s = .next (status code t) ∧ ImmediateEffect i s code t := by
  cases i with
  | encrypt n => cases h
  | decrypt n => cases h
  | setkey n => cases h
  | setiv n => cases h
  | setmode m =>
    cases hm : streamingMode m with
    | none =>
      refine ⟨.modeValue, s, by simp only [exec, execSetmode, hm], rfl, fun _ => rfl, .inl rfl, .inl rfl, .inl rfl, ?_⟩
      intro _ _ hc
      cases hc
    | some mode =>
      refine ⟨.ok, fsReset { s with mode := mode }, by simp only [exec, execSetmode, hm], rfl,
        fun hc => absurd rfl hc, .inr ⟨rfl, .inl ⟨m, rfl⟩⟩, .inr ⟨streamingMode_ne_blk hm, m, rfl⟩, .inl rfl, ?_⟩
      intro m' hm' _
      cases hm'
      exact ⟨hm, rfl⟩
  | cbon =>
    exact ⟨.ok, { s with cb := true }, rfl, rfl, fun hc => absurd rfl hc, .inl rfl, .inl rfl, .inr (.inl rfl),
      fun _ hm => by cases hm⟩
  | cboff =>
    exact ⟨.ok, { s with cb := false }, rfl, rfl, fun hc => absurd rfl hc, .inl rfl, .inl rfl, .inr (.inr rfl),
      fun _ hm => by cases hm⟩
  | resetfs =>
    exact ⟨.ok, fsReset s, rfl, rfl, fun hc => absurd rfl hc, .inr ⟨rfl, .inr rfl⟩, .inl rfl, .inl rfl,
      fun _ hm => by cases hm⟩
  | setblklen v => exact ⟨.ok, s, rfl, rfl, fun _ => rfl, .inl rfl, .inl rfl, .inl rfl, fun _ hm => by cases hm⟩
  | reservedZero other =>
    exact ⟨.illegalOp, s, rfl, rfl, fun _ => rfl, .inl rfl, .inl rfl, .inl rfl, fun _ hm => by cases hm⟩
  | reservedAB op other =>
    exact ⟨.illegalOp, s, rfl, rfl, fun _ => rfl, .inl rfl, .inl rfl, .inl rfl, fun _ hm => by cases hm⟩
  | reservedCF op other =>
    exact ⟨.illegalOp, s, rfl, rfl, fun _ => rfl, .inl rfl, .inl rfl, .inl rfl, fun _ hm => by cases hm⟩

theorem payloadBytes_immediate {i : Instr} (h : takesPayload i = false) : i.payloadBytes = 0 := by
  cases i <;> first | rfl | cases h

/-! ## A command in progress and its payload -/

theorem startWork_read (s : State) : (startWork s).read s.fs = callStart s := by
  unfold startWork callStart
  split <;> rfl

theorem startWork_fsAfter (s : State) (S : FeedbackState) :
    (startWork s).fsAfter s.fs S = if s.cb then S else s.fs := by
  unfold startWork
  split <;> rfl

@[simp] theorem Work.fsAfter_read (work : Work) (fs : FeedbackState) : work.fsAfter fs (work.read fs) = fs := by
  cases work <;> rfl

@[simp] theorem Work.after_read (work : Work) (fs : FeedbackState) : work.after (work.read fs) = work := by
  cases work <;> rfl

@[simp] theorem Work.read_after (work : Work) (fs S : FeedbackState) :
    (work.after S).read (work.fsAfter fs S) = S := by
  cases work <;> rfl

@[simp] theorem Work.fsAfter_after (work : Work) (fs S S' : FeedbackState) :
    (work.after S).fsAfter (work.fsAfter fs S) S' = work.fsAfter fs S' := by
  cases work <;> rfl

/-- A call with room in DOUT for what it can compute now: it folds the byte steps over the bytes present, and either
completes or waits for the rest with nothing pending (R55, R112). -/
theorem advance_process_room (P : Params) (w : Word) (n : Nat) (dir : Direction) (work : Work) (pending : List Byte)
    (s : State) {S' : FeedbackState} {ys : List Byte}
    (hfold : byteFold P.E s.mode (keyInUse s) dir (work.read s.fs) (s.din.take n) = some (S', ys))
    (hroom : s.dout.length + pending.length + (s.din.take n).length ≤ P.doutDepth) :
    advance P ⟨w, n, .process dir work pending⟩ s =
      if n - s.din.length = 0 then
        status .ok { s with
          din := s.din.drop n
          dout := s.dout ++ pending ++ ys
          fs := work.fsAfter s.fs S' }
      else { s with
        din := s.din.drop n
        dout := s.dout ++ pending ++ ys
        fs := work.fsAfter s.fs S'
        progress := some ⟨w, n - s.din.length, .process dir (work.after S') []⟩ } := by
  have hp := pump_of_room (P := P) s.mode (keyInUse s) dir s.din n pending s.dout hfold hroom
  simp only [advance, advanceProcess_eq, hp, and_true]

/-- SETKEY with the bytes present (R131): it ends, or waits for the rest. -/
theorem advance_loadKey (P : Params) (w : Word) (n : Nat) (got : List Byte) (s : State) :
    advance P ⟨w, n, .loadKey got⟩ s =
      if n - s.din.length = 0 then status .ok (fsReset (writeKey (got ++ s.din.take n) (popPresent n s)))
      else { popPresent n s with progress := some ⟨w, n - s.din.length, .loadKey (got ++ s.din.take n)⟩ } := rfl

/-- SETIV with the bytes present (R132): it ends, or waits for the rest. -/
theorem advance_loadIv (P : Params) (w : Word) (n : Nat) (got : List Byte) (s : State) :
    advance P ⟨w, n, .loadIv got⟩ s =
      if n - s.din.length = 0 then status .ok (fsReset (writeIv (got ++ s.din.take n) (popPresent n s)))
      else { popPresent n s with progress := some ⟨w, n - s.din.length, .loadIv (got ++ s.din.take n)⟩ } := rfl

/-- A rejected command with the bytes present (R112): it ends, or waits for the rest. -/
theorem advance_drain (P : Params) (w : Word) (n : Nat) (code : ErrCode) (s : State) :
    advance P ⟨w, n, .drain code⟩ s =
      if n - s.din.length = 0 then status code (popPresent n s)
      else { popPresent n s with progress := some ⟨w, n - s.din.length, .drain code⟩ } := rfl

/-- A command in progress that completes and was not rejected reports OK. -/
theorem advance_err_ok (P : Params) (p : Progress) (s : State) (h : (advance P p s).progress = none)
    (hc : ∀ code, p.task ≠ .drain code) : (advance P p s).err = .ok := by
  obtain ⟨w, n, task⟩ := p
  cases task with
  | process dir work pending =>
    simp only [advance, advanceProcess_eq] at h ⊢
    split at h
    · rename_i hdone
      rw [if_pos hdone]
      rfl
    · simp at h
  | loadKey got =>
    rw [advance_loadKey] at h ⊢
    split at h
    · rename_i hdone
      rw [if_pos hdone]
      rfl
    · simp at h
  | loadIv got =>
    rw [advance_loadIv] at h ⊢
    split at h
    · rename_i hdone
      rw [if_pos hdone]
      rfl
    · simp at h
  | drain code => exact absurd rfl (hc code)

/-! ## The step -/

/-- With a command in progress the step takes it on (R34). -/
theorem step_busy {s : State} {p : Progress} (hr : s.rst = false) (hf : s.fault = false) (hp : s.progress = some p) :
    step s = .next (advance Config.params p s) := by
  simp [step, hr, hf, hp]

/-- What a step that gives a next state is: the reset hold, a command that goes on, a wait for a command word, or a
command word taken and run. -/
theorem step_cases {s t : State} (h : step s = .next t) :
    (s.rst = true ∧ t = s) ∨
    (s.rst = false ∧ s.fault = false ∧ ∃ p, s.progress = some p ∧ t = advance Config.params p s) ∨
    (s.Idle ∧ s.cmd = [] ∧ t = s) ∨
    (s.Idle ∧ ∃ w ws, s.cmd = w :: ws ∧ runWord w { s with cmd := ws } = .next t) := by
  cases hr : s.rst with
  | true => exact .inl ⟨rfl, by simpa [step, hr] using h.symm⟩
  | false =>
    cases hf : s.fault with
    | true => simp [step, hr, hf] at h
    | false =>
      cases hp : s.progress with
      | some p => exact .inr (.inl ⟨rfl, rfl, p, rfl, by simpa [step, hr, hf, hp] using h.symm⟩)
      | none =>
        cases hc : s.cmd with
        | nil => exact .inr (.inr (.inl ⟨⟨hr, hf, hp⟩, rfl, by simpa [step, hr, hf, hp, takeWord, hc] using h.symm⟩))
        | cons w ws =>
          exact .inr (.inr (.inr ⟨⟨hr, hf, hp⟩, w, ws, rfl, by simpa [step, hr, hf, hp, takeWord, hc] using h⟩))

/-- Running a word is `exec` of the command it decodes to, or a RESERVED_FIELD rejection (R77). -/
theorem runWord_cases (w : Word) (s : State) :
    (∃ i, decode w = .command i ∧ runWord w s = exec i s) ∨
    (decode w = .reservedField w ∧ runWord w s = .next (rejectReservedField Config.params w s)) := by
  have hself : ∀ v, decode w = .reservedField v → v = w := by
    intro v hv
    unfold decode at hv
    split_ifs at hv <;> exact (Decoded.reservedField.inj hv).symm
  cases hd : decode w with
  | command i => exact .inl ⟨i, rfl, by simp only [runWord, hd]⟩
  | reservedField v =>
    have := hself v hd
    subst this
    exact .inr ⟨rfl, by simp only [runWord, hd]⟩

end Sys2Proof.Machine
end

