-- ==== Sys2Proof/Laws/PerInstr.lean ====
section
/-! SUPPORT. Facts about each command as syntax, one lemma per command. -/

namespace Sys2Proof.Laws.WordPayload

/-- The count of payload bytes that a command's word asks for, LEN for a data-bearing opcode and none for any other
(R57, R58, R73), is the command's. -/
def Statement (i : Instr) : Prop :=
  i.wellFormed = true →
    (if dataBearing (opField (encode i)) then (lenField (encode i)).toNat else 0) = i.payloadBytes

theorem toNat_of_fits {n : Nat} (h : fitsLen n = true) : (BitVec.ofNat 24 n).toNat = n := by
  have hn : n < 2 ^ 24 := of_decide_eq_true h
  rw [BitVec.toNat_ofNat, Nat.mod_eq_of_lt hn]

theorem encrypt (n : Nat) : Statement (.encrypt n) := fun h => by
  simpa [encode, dataBearing, Instr.payloadBytes] using toNat_of_fits h

theorem decrypt (n : Nat) : Statement (.decrypt n) := fun h => by
  simpa [encode, dataBearing, Instr.payloadBytes] using toNat_of_fits h

theorem setkey (n : Nat) : Statement (.setkey n) := fun h => by
  simpa [encode, dataBearing, Instr.payloadBytes] using toNat_of_fits h

theorem setiv (n : Nat) : Statement (.setiv n) := fun h => by
  simpa [encode, dataBearing, Instr.payloadBytes] using toNat_of_fits h

theorem setmode (m : BitVec 2) : Statement (.setmode m) := fun _ => by
  simp [encode, dataBearing, Instr.payloadBytes]

theorem cbon : Statement .cbon := fun _ => by simp [encode, dataBearing, Instr.payloadBytes]

theorem cboff : Statement .cboff := fun _ => by simp [encode, dataBearing, Instr.payloadBytes]

theorem resetfs : Statement .resetfs := fun _ => by simp [encode, dataBearing, Instr.payloadBytes]

theorem setblklen (v : Nat) : Statement (.setblklen v) := fun _ => by
  simp [encode, dataBearing, Instr.payloadBytes]

theorem reservedZero (other : BitVec 28) : Statement (.reservedZero other) := fun _ => by
  simp [encode, dataBearing, Instr.payloadBytes]

theorem reservedAB (op : BitVec 4) (other : BitVec 28) : Statement (.reservedAB op other) := fun h => by
  simp only [Instr.wellFormed, Bool.or_eq_true, beq_iff_eq] at h
  rcases h with rfl | rfl <;> simp [encode, dataBearing, Instr.payloadBytes]

theorem reservedCF (op : BitVec 4) (other : BitVec 28) : Statement (.reservedCF op other) := fun h => by
  simp only [Instr.wellFormed, Bool.or_eq_true, beq_iff_eq] at h
  rcases h with ((rfl | rfl) | rfl) | rfl <;> simp [encode, dataBearing, Instr.payloadBytes]

end Sys2Proof.Laws.WordPayload
end

