-- ==== Sys2Proof/Laws/Invariant.lean ====
section
/-! SUPPORT. The invariant and a command that goes on: what a command satisfies when it starts, and that going on
keeps the invariant. -/

namespace Sys2Proof.Machine

/-- `State.Inv` without its two clauses about a command in progress and about RST, for an engine out of reset. -/
structure State.Sound (s : State) : Prop where
  fsOk      : s.fs.Ok
  keyTail   : ∀ k, s.keyLen.bytes ≤ k → s.key.toList.getD k 0#8 = 0#8
  ivUnset   : s.ivv = false → s.iv = zeroBlock
  noFault   : s.fault = false
  cmdBound  : s.cmd.length ≤ Config.params.cmdDepth
  dinBound  : s.din.length ≤ Config.params.dinDepth
  doutBound : s.dout.length ≤ Config.params.doutDepth
  noReset   : s.rst = false

theorem State.Inv.sound {s : State} (h : s.Inv) (hr : s.rst = false) : s.Sound :=
  ⟨h.fsOk, h.keyTail, h.ivUnset, h.noFault, h.cmdBound, h.dinBound, h.doutBound, hr⟩

theorem State.Sound.inv {s : State} (h : s.Sound) (hp : ∀ p, s.progress = some p → p.Ok s) : s.Inv :=
  ⟨h.fsOk, h.keyTail, h.ivUnset, h.noFault, h.cmdBound, h.dinBound, h.doutBound, hp,
    fun hr => by rw [h.noReset] at hr; cases hr⟩

theorem State.Sound.inv_idle {s : State} (h : s.Sound) (hp : s.progress = none) : s.Inv :=
  h.inv fun p hs => by rw [hp] at hs; cases hs

/-- `Progress.Ok` without the clause that the command still has something to do: it holds of a command that starts. -/
def Progress.Sound (s : State) (p : Progress) : Prop :=
  match p.task with
  | .process dir work pending =>
    (∃ n, n < lenLimit ∧ p.word = encode (callOf dir n) ∧ p.left + pending.length ≤ n) ∧
    s.Ready ∧
    (match work with
      | .live => s.cb = true
      | .copy w => s.cb = false ∧ w.Ok) ∧
    pending.length ≤ Config.params.aheadRoom ∧ pending.length ≤ Config.params.dinDepth ∧
    pending.length ≤ Config.params.doutDepth
  | .loadKey got => ∃ n, n ∈ keyLengths ∧ p.word = encode (.setkey n) ∧ got.length + p.left = n
  | .loadIv got => p.word = encode (.setiv blockBytes) ∧ got.length + p.left = blockBytes
  | .drain code =>
    code ≠ .ok ∧ (0 < p.left → dataBearing (opField p.word) = true ∧ p.left ≤ (lenField p.word).toNat)

theorem Progress.Ok.sound {s : State} {p : Progress} (h : p.Ok s) : p.Sound s := by
  obtain ⟨w, n, task⟩ := p
  cases task with
  | process dir work pending => exact ⟨h.1, h.2.1, h.2.2.1, h.2.2.2.1, h.2.2.2.2.1, h.2.2.2.2.2.1⟩
  | loadKey got =>
    obtain ⟨m, hm, hw, hl, -⟩ := h
    exact ⟨m, hm, hw, hl⟩
  | loadIv got => exact ⟨h.1, h.2.1⟩
  | drain code => exact ⟨h.1, fun _ => ⟨h.2.1, h.2.2.1⟩⟩

/-- `Progress.Ok` looks at MODE, KEYLEN, IVV and CB alone. -/
theorem Progress.Ok.congr {s t : State} {p : Progress} (h : p.Ok s) (hm : t.mode = s.mode) (hk : t.keyLen = s.keyLen)
    (hi : t.ivv = s.ivv) (hc : t.cb = s.cb) : p.Ok t := by
  obtain ⟨w, n, task⟩ := p
  cases task with
  | process dir work pending =>
    obtain ⟨hword, hready, hwork, hrest⟩ := h
    refine ⟨hword, ⟨hm ▸ hready.1, hk ▸ hready.2.1, hi ▸ hready.2.2⟩, ?_, hrest⟩
    cases work with
    | live => exact hc.trans hwork
    | copy W => exact ⟨hc.trans hwork.1, hwork.2⟩
  | loadKey got => exact h
  | loadIv got => exact h
  | drain code => exact h

theorem advance_process_inv {s : State} {w : Word} {n : Nat} {dir : Direction} {work : Work} {pending : List Byte}
    (hs : s.Sound) (hp : Progress.Sound s ⟨w, n, .process dir work pending⟩) :
    (advance Config.params ⟨w, n, .process dir work pending⟩ s).Inv := by
  obtain ⟨⟨m, hm, hw, hl⟩, hready, hwork, hb₁, hb₂, hb₃⟩ := hp
  have hl : n + pending.length ≤ m := hl
  have hS : (work.read s.fs).Ok := by
    cases work with
    | live => exact hs.fsOk
    | copy W => exact hwork.2
  obtain ⟨-, hdin, hleft, hbounds, hdout, hfs⟩ :=
    pump_keeps Config.params s.mode (keyInUse s) dir s.din n (work.read s.fs) pending s.dout
  have hafter : (work.fsAfter s.fs
      (pump Config.params s.mode (keyInUse s) dir s.din n (work.read s.fs) pending s.dout).fs).Ok := by
    cases work with
    | live => exact hfs hS
    | copy W => exact hs.fsOk
  simp only [advance, advanceProcess_eq]
  split
  · exact State.Sound.inv_idle ⟨hafter, hs.keyTail, hs.ivUnset, hs.noFault, hs.cmdBound, hdin.trans hs.dinBound,
      hdout hs.doutBound, hs.noReset⟩ rfl
  · rename_i hmore
    refine State.Sound.inv ⟨hafter, hs.keyTail, hs.ivUnset, hs.noFault, hs.cmdBound, hdin.trans hs.dinBound,
      hdout hs.doutBound, hs.noReset⟩ ?_
    intro p hp
    cases hp
    obtain ⟨hc₁, hc₂, hc₃⟩ := hbounds ⟨hb₁, hb₂, hb₃⟩
    refine ⟨⟨m, hm, hw, hleft.trans hl⟩, hready, ?_, hc₁, hc₂, hc₃, fun h₀ hnil => hmore ⟨h₀, hnil⟩⟩
    cases work with
    | live => exact hwork
    | copy W => exact ⟨hwork.1, hfs hS⟩

theorem advance_loadKey_inv {s : State} {w : Word} {n : Nat} {got : List Byte} (hs : s.Sound)
    (hp : Progress.Sound s ⟨w, n, .loadKey got⟩) : (advance Config.params ⟨w, n, .loadKey got⟩ s).Inv := by
  obtain ⟨m, hm, hw, hl⟩ := hp
  have hl : got.length + n = m := hl
  have hdin : (s.din.drop n).length ≤ Config.params.dinDepth := by
    rw [List.length_drop]
    exact (Nat.sub_le _ _).trans hs.dinBound
  rw [advance_loadKey]
  split
  · refine State.Sound.inv_idle ⟨fun _ => rfl, ?_, hs.ivUnset, hs.noFault, hs.cmdBound, hdin, hs.doutBound,
      hs.noReset⟩ rfl
    have hlen : (got ++ s.din.take n).length = m := by
      rw [List.length_append, List.length_take]
      omega
    have hlegal : m ≤ 32 ∧ (keyLenOf m).bytes = m := by
      simp only [keyLengths, List.mem_cons, List.not_mem_nil, or_false] at hm
      rcases hm with rfl | rfl | rfl <;> exact ⟨by decide, by decide⟩
    intro k hk
    simp only [status_keyLen, fsReset_keyLen, writeKey_keyLen, hlen, hlegal.2] at hk
    simp only [status_key, fsReset_key, writeKey_key]
    rw [keyOfBytes, arrayOfBytes_getD _ _ _ (by omega), List.getD_eq_default _ _ (by omega)]
  · refine State.Sound.inv ⟨hs.fsOk, hs.keyTail, hs.ivUnset, hs.noFault, hs.cmdBound, hdin, hs.doutBound,
      hs.noReset⟩ ?_
    intro p hp
    cases hp
    refine ⟨m, hm, hw, ?_, ?_⟩
    · simp only [List.length_append, List.length_take]
      omega
    · show 0 < n - s.din.length
      omega

theorem advance_loadIv_inv {s : State} {w : Word} {n : Nat} {got : List Byte} (hs : s.Sound)
    (hp : Progress.Sound s ⟨w, n, .loadIv got⟩) : (advance Config.params ⟨w, n, .loadIv got⟩ s).Inv := by
  obtain ⟨hw, hl⟩ := hp
  have hl : got.length + n = blockBytes := hl
  have hdin : (s.din.drop n).length ≤ Config.params.dinDepth := by
    rw [List.length_drop]
    exact (Nat.sub_le _ _).trans hs.dinBound
  rw [advance_loadIv]
  split
  · exact State.Sound.inv_idle ⟨fun _ => rfl, hs.keyTail, (fun h => by cases h), hs.noFault, hs.cmdBound, hdin,
      hs.doutBound, hs.noReset⟩ rfl
  · refine State.Sound.inv ⟨hs.fsOk, hs.keyTail, hs.ivUnset, hs.noFault, hs.cmdBound, hdin, hs.doutBound,
      hs.noReset⟩ ?_
    intro p hp
    cases hp
    refine ⟨hw, ?_, ?_⟩
    · simp only [List.length_append, List.length_take]
      omega
    · show 0 < n - s.din.length
      omega

theorem advance_drain_inv {s : State} {w : Word} {n : Nat} {code : ErrCode} (hs : s.Sound)
    (hp : Progress.Sound s ⟨w, n, .drain code⟩) : (advance Config.params ⟨w, n, .drain code⟩ s).Inv := by
  obtain ⟨hcode, hl⟩ := hp
  have hl : 0 < n → dataBearing (opField w) = true ∧ n ≤ (lenField w).toNat := hl
  have hdin : (s.din.drop n).length ≤ Config.params.dinDepth := by
    rw [List.length_drop]
    exact (Nat.sub_le _ _).trans hs.dinBound
  rw [advance_drain]
  split
  · exact State.Sound.inv_idle ⟨hs.fsOk, hs.keyTail, hs.ivUnset, hs.noFault, hs.cmdBound, hdin, hs.doutBound,
      hs.noReset⟩ rfl
  · refine State.Sound.inv ⟨hs.fsOk, hs.keyTail, hs.ivUnset, hs.noFault, hs.cmdBound, hdin, hs.doutBound,
      hs.noReset⟩ ?_
    intro p hp
    cases hp
    obtain ⟨hbear, hlen⟩ := hl (by omega)
    refine ⟨hcode, hbear, (Nat.sub_le _ _).trans hlen, ?_⟩
    show 0 < n - s.din.length
    omega

/-- A sound command in progress that goes on from a sound state leaves a state that meets the invariant. -/
theorem advance_inv {s : State} {p : Progress} (hs : s.Sound) (hp : p.Sound s) :
    (advance Config.params p s).Inv := by
  obtain ⟨w, n, task⟩ := p
  cases task with
  | process dir work pending => exact advance_process_inv hs hp
  | loadKey got => exact advance_loadKey_inv hs hp
  | loadIv got => exact advance_loadIv_inv hs hp
  | drain code => exact advance_drain_inv hs hp

/-- The word of a command with a payload is data-bearing and counts that payload (R57, R74). -/
theorem payload_word {i : Instr} (h : takesPayload i = true) (hw : i.wellFormed = true) :
    dataBearing (opField (encode i)) = true ∧ (lenField (encode i)).toNat = i.payloadBytes ∧
      i.payloadBytes < lenLimit := by
  have len : ∀ n, fitsLen n = true → (BitVec.ofNat 24 n).toNat = n ∧ n < lenLimit := fun n hn =>
    ⟨Laws.WordPayload.toNat_of_fits hn, of_decide_eq_true hn⟩
  cases i with
  | encrypt n => simpa [encode, dataBearing, Instr.payloadBytes] using len n hw
  | decrypt n => simpa [encode, dataBearing, Instr.payloadBytes] using len n hw
  | setkey n => simpa [encode, dataBearing, Instr.payloadBytes] using len n hw
  | setiv n => simpa [encode, dataBearing, Instr.payloadBytes] using len n hw
  | setmode m => cases h
  | cbon => cases h
  | cboff => cases h
  | resetfs => cases h
  | setblklen v => cases h
  | reservedZero other => cases h
  | reservedAB op other => cases h
  | reservedCF op other => cases h

/-- A well-formed command with a payload starts sound, whatever the state. -/
theorem start_sound {i : Instr} (h : takesPayload i = true) (hw : i.wellFormed = true) (s : State) :
    Progress.Sound s ⟨encode i, i.payloadBytes, taskOf i s⟩ := by
  obtain ⟨hbear, hlen, hlim⟩ := payload_word h hw
  rcases taskOf_cases h s with ⟨dir, n, rfl, hready, ht⟩ | ⟨n, rfl, hn, ht⟩ | ⟨rfl, ht⟩ | ⟨code, hcode, ht⟩
  · rw [ht, payloadBytes_callOf]
    rw [payloadBytes_callOf] at hlim
    refine ⟨⟨n, hlim, rfl, le_refl _⟩, hready, ?_, Nat.zero_le _, Nat.zero_le _, Nat.zero_le _⟩
    cases hcb : s.cb with
    | true => simp only [startWork, hcb, if_true]
    | false =>
      simp only [startWork, hcb, Bool.false_eq_true, if_false]
      exact ⟨trivial, fun _ => rfl⟩
  · rw [ht]
    exact ⟨n, hn, rfl, Nat.zero_add _⟩
  · rw [ht]
    exact ⟨rfl, rfl⟩
  · rw [ht]
    exact ⟨hcode, fun _ => ⟨hbear, hlen.ge⟩⟩

/-- A word rejected with RESERVED_FIELD starts sound. -/
theorem reserved_sound (w : Word) (s : State) :
    Progress.Sound s ⟨w, if dataBearing (opField w) then (lenField w).toNat else 0, .drain .reservedField⟩ := by
  refine ⟨by decide, fun h => ?_⟩
  have h : 0 < if dataBearing (opField w) then (lenField w).toNat else 0 := h
  split at h
  · rename_i hd
    exact ⟨hd, by simp [hd]⟩
  · omega

end Sys2Proof.Machine
end

