-- ==== Sys2Proof/Laws/Segment.lean ====
section
/-! SUPPORT. A run of byte steps that stays inside one keystream block, done at once (R103, R104, R108, R120). -/

namespace Sys2Proof.Machine

theorem putByte_toList (A : Block) (c : BitVec 4) (b : Byte) : (putByte A c b).toList = A.toList.set c.toNat b := by
  apply List.ext_getElem
  · simp
  · intro i h₁ h₂
    simp [putByte, List.getElem_set, Vector.getElem_set]

theorem drop_at_cursor (A : Block) (c : BitVec 4) :
    A.toList.drop c.toNat = byteAt A c :: A.toList.drop (c.toNat + 1) := by
  have h : c.toNat < A.toList.length := by
    rw [Vector.length_toList]
    exact c.isLt
  rw [List.drop_eq_getElem_cons h]
  rfl

theorem take_set_succ (l : List Byte) (c : Nat) (z : Byte) (h : c < l.length) :
    (l.set c z).take (c + 1) = l.take c ++ [z] := by
  have hlen : (l.take c).length = c := by
    rw [List.length_take]
    omega
  rw [List.set_eq_take_append_cons_drop, if_pos h, List.take_append, hlen, List.take_of_length_le (by omega)]
  simp

/-- The ciphertext byte of a byte step (R104). -/
def cipherByte (dir : Direction) (x y : Byte) : Byte :=
  match dir with
  | .enc => y
  | .dec => x

/-- The ciphertext bytes of a run. -/
def cipherBytes (dir : Direction) (xs ys : List Byte) : List Byte :=
  match dir with
  | .enc => ys
  | .dec => xs

theorem keepByte_cfb (dir : Direction) (x y : Byte) (S : FeedbackState) :
    keepByte .cfb dir x y S = { S with ks := putByte S.ks S.cur (cipherByte dir x y) } := by
  cases dir <;> rfl

theorem segmentKept_cfb (dir : Direction) (K : Block) (c : Nat) (xs ys : List Byte) :
    segmentKept .cfb dir K c xs ys =
      blockOfBytes (K.toList.take c ++ cipherBytes dir xs ys ++ K.toList.drop (c + xs.length)) := by
  cases dir <;> rfl

theorem beginBlock_ks (E : List Byte → Block → Block) (key : List Byte) (S : FeedbackState) :
    (beginBlock E key S).ks = segmentBlock E key S := by
  unfold beginBlock segmentBlock
  split <;> rfl

theorem nextReg_congr (mode : Mode) {S T : FeedbackState} (hreg : S.reg = T.reg) (hks : S.ks = T.ks) :
    nextReg mode S = nextReg mode T := by
  cases mode <;> simp [nextReg, hreg, hks]

/-- A run of one byte keeps what the byte step keeps. -/
theorem keepByte_ks (mode : Mode) (dir : Direction) (S : FeedbackState) (x y : Byte) :
    (keepByte mode dir x y S).ks = segmentKept mode dir S.ks S.cur.toNat [x] [y] := by
  cases mode with
  | cfb =>
    have h : S.cur.toNat < 16 := S.cur.isLt
    have hB : blockBytes = 16 := rfl
    have hz : cipherBytes dir [x] [y] = [cipherByte dir x y] := by cases dir <;> rfl
    rw [keepByte_cfb, segmentKept_cfb, hz]
    apply block_ext
    rw [blockOfBytes, arrayOfBytes_toList_of_length _ _ (by simp; omega), putByte_toList,
      List.set_eq_take_append_cons_drop]
    simp [h]
  | ctr => rfl
  | ofb => rfl
  | blk => rfl

/-- The bytes of the block after the one just used are untouched. -/
theorem segmentKept_drop (mode : Mode) (dir : Direction) (S : FeedbackState) (x y : Byte) (n : Nat)
    (h : S.cur.toNat < n) :
    (segmentKept mode dir S.ks S.cur.toNat [x] [y]).toList.drop n = S.ks.toList.drop n := by
  rw [← keepByte_ks]
  cases mode with
  | cfb =>
    rw [keepByte_cfb]
    simp only [putByte_toList, List.drop_set_of_lt h]
  | ctr => rfl
  | ofb => rfl
  | blk => rfl

/-- Keeping a byte and then the rest is keeping them all. -/
theorem segmentKept_cons (mode : Mode) (dir : Direction) (S : FeedbackState) (x y : Byte) (xs ys : List Byte) :
    segmentKept mode dir (segmentKept mode dir S.ks S.cur.toNat [x] [y]) (S.cur.toNat + 1) xs ys =
      segmentKept mode dir S.ks S.cur.toNat (x :: xs) (y :: ys) := by
  cases mode with
  | cfb =>
    have hlen : S.cur.toNat < S.ks.toList.length := by
      rw [Vector.length_toList]
      exact S.cur.isLt
    have hcons : cipherBytes dir (x :: xs) (y :: ys) = cipherByte dir x y :: cipherBytes dir xs ys := by
      cases dir <;> rfl
    rw [segmentKept_cfb dir _ (S.cur.toNat + 1), segmentKept_drop _ _ _ _ _ _ (by omega), ← keepByte_ks, keepByte_cfb,
      segmentKept_cfb]
    simp only [putByte_toList]
    rw [take_set_succ _ _ _ hlen, hcons]
    congr 1
    simp [Nat.add_assoc, Nat.add_comm, Nat.add_left_comm]
  | ctr => rfl
  | ofb => rfl
  | blk => rfl

/-- A nonempty run of bytes that the current block serves: the fold of the byte steps is one segment of the
block-wise algorithm. -/
theorem byteFold_segment (E : List Byte → Block → Block) (mode : Mode) (key : List Byte) (dir : Direction)
    (S : FeedbackState) (xs : List Byte) (hne : xs ≠ []) (hlen : S.cur.toNat + xs.length ≤ 16) :
    byteFold E mode key dir S xs = some
      (segmentState mode S
        (segmentKept mode dir (segmentBlock E key S) S.cur.toNat xs
          (segmentOut (segmentBlock E key S) S.cur.toNat xs)) xs.length,
        segmentOut (segmentBlock E key S) S.cur.toNat xs) := by
  induction xs generalizing S with
  | nil => exact absurd rfl hne
  | cons x xs ih =>
    rw [List.length_cons] at hlen
    obtain ⟨T, hT⟩ : ∃ T, beginBlock E key S = T := ⟨_, rfl⟩
    have hTc : T.cur = S.cur := by rw [← hT, beginBlock_cur]
    have hTr : T.reg = S.reg := by rw [← hT, beginBlock_reg]
    have hTk : segmentBlock E key S = T.ks := by rw [← hT, beginBlock_ks]
    rw [hTk]
    have hout : ∀ zs, segmentOut T.ks S.cur.toNat (x :: zs) =
        (x ^^^ byteAt T.ks T.cur) :: segmentOut T.ks (S.cur.toNat + 1) zs := by
      intro zs
      rw [segmentOut, ← hTc, drop_at_cursor, List.zipWith_cons_cons, segmentOut]
    have hkeep := keepByte_ks mode dir T x (x ^^^ byteAt T.ks T.cur)
    rw [hTc] at hkeep
    cases xs with
    | nil =>
      have hnil : segmentOut T.ks (S.cur.toNat + 1) [] = [] := rfl
      rw [hout, hnil]
      simp only [byteFold]
      by_cases h15 : S.cur.toNat < 15
      · have hB : ¬S.cur.toNat + [x].length = blockBytes := by
          rw [List.length_singleton]
          show ¬_ = 16
          omega
        have hcur : S.cur + 1#4 = BitVec.ofNat 4 (S.cur.toNat + 1) := BitVec.eq_of_toNat_eq (by simp)
        rw [byteStep_inside E mode key dir S x h15, segmentState, if_neg hB, hT, hTc, hkeep, hcur]
        simp
      · have hc : S.cur = 15#4 := BitVec.eq_of_toNat_eq (by rw [BitVec.toNat_ofNat]; omega)
        have hB : S.cur.toNat + [x].length = blockBytes := by
          rw [hc]
          rfl
        rw [byteStep_last E mode key dir S x hc, segmentState, if_pos hB, hT, hTc]
        rw [nextReg_congr mode (T := { S with
          ks := segmentKept mode dir T.ks S.cur.toNat [x] [x ^^^ byteAt T.ks S.cur] }) (by simp [hTr]) hkeep]
    | cons x' xs' =>
      have h15 : S.cur.toNat < 15 := by
        rw [List.length_cons] at hlen
        omega
      have hcur : (S.cur + 1#4).toNat = S.cur.toNat + 1 := by
        rw [BitVec.toNat_add, BitVec.toNat_ofNat]
        omega
      have hcur0 : ¬S.cur + 1#4 = 0#4 := by
        intro h
        rw [h] at hcur
        simp at hcur
      rw [hTc] at hout
      have hstep := byteStep_inside E mode key dir S x h15
      rw [hT, hTc, hkeep] at hstep
      generalize x ^^^ byteAt T.ks S.cur = y at hout hstep
      have hdrop := segmentKept_drop mode dir T x y (S.cur.toNat + 1) (by rw [hTc]; omega)
      have hcons := segmentKept_cons mode dir T x y (x' :: xs') (segmentOut T.ks (S.cur.toNat + 1) (x' :: xs'))
      rw [hTc] at hdrop hcons
      have hrest := ih ⟨S.reg, segmentKept mode dir T.ks S.cur.toNat [x] [y], S.cur + 1#4⟩ (by simp)
        (by simp only [hcur]; omega)
      have hpend : segmentBlock E key ⟨S.reg, segmentKept mode dir T.ks S.cur.toNat [x] [y], S.cur + 1#4⟩ =
          segmentKept mode dir T.ks S.cur.toNat [x] [y] := if_neg hcur0
      have hsame : segmentOut (segmentKept mode dir T.ks S.cur.toNat [x] [y]) (S.cur.toNat + 1) (x' :: xs') =
          segmentOut T.ks (S.cur.toNat + 1) (x' :: xs') := by
        rw [segmentOut, hdrop, segmentOut]
      rw [hpend] at hrest
      simp only [hcur] at hrest
      rw [hsame, hcons] at hrest
      have hsum : S.cur.toNat + 1 + (x' :: xs').length = S.cur.toNat + (x :: x' :: xs').length := by
        simp only [List.length_cons]
        omega
      rw [byteFold_cons E mode key dir hstep hrest, hout]
      simp only [segmentState, hcur, hsum]
      rw [nextReg_congr mode (T := { S with
        ks := segmentKept mode dir T.ks S.cur.toNat (x :: x' :: xs')
          (y :: segmentOut T.ks (S.cur.toNat + 1) (x' :: xs')) }) (by rfl) (by rfl)]

end Sys2Proof.Machine
end

