-- ==== Sys2Proof/Laws/Served.lean ====
section
/-! SUPPORT. A call in progress served byte by byte (R54, R64). -/

namespace Sys2Proof.Machine

/-- A host that has room on DIN puts its byte there. -/
theorem supplyByte_empty {s : State} (b : Byte) (h : s.din = []) :
    supplyByte Config.params b s = { s with din := [b] } := by
  have hroom : s.din.length < Config.params.dinDepth := by
    rw [h]
    exact Nat.succ_pos _
  rw [supplyByte, if_pos hroom, h]
  rfl

/-- A call that waits for all its bytes with nothing pending, served byte by byte, delivers the fold of the byte steps
and ends. -/
theorem serve_call (dir : Direction) (w : Word) {xs : List Byte} (hne : xs ≠ []) (work : Work) (t : State)
    (hr : t.rst = false) (hf : t.fault = false)
    (hp : t.progress = some ⟨w, xs.length, .process dir work []⟩) (hdin : t.din = []) (hdout : t.dout = [])
    {S' : FeedbackState} {ys : List Byte}
    (hfold : byteFold Config.params.E t.mode (keyInUse t) dir (work.read t.fs) xs = some (S', ys)) :
    serve xs t = some (ys, { t with fs := work.fsAfter t.fs S', err := .ok, progress := none }) := by
  induction xs generalizing t work ys with
  | nil => exact absurd rfl hne
  | cons x xs ih =>
    have hstep := byteStep_eq Config.params.E t.mode (keyInUse t) dir (work.read t.fs) x
    generalize x ^^^ byteAt (beginBlock Config.params.E (keyInUse t) (work.read t.fs)).ks
      (beginBlock Config.params.E (keyInUse t) (work.read t.fs)).cur = y at hstep
    generalize finishByte t.mode (keepByte t.mode dir x y
      (beginBlock Config.params.E (keyInUse t) (work.read t.fs))) = S₁ at hstep
    obtain ⟨S₂, zs, hrest, -⟩ := byteFold_completes Config.params.E t.mode (keyInUse t) dir S₁ xs
    have hcons := byteFold_cons _ _ _ _ hstep hrest
    rw [hfold] at hcons
    simp only [Option.some.injEq, Prod.mk.injEq] at hcons
    obtain ⟨rfl, rfl⟩ := hcons
    have hone : byteFold Config.params.E t.mode (keyInUse t) dir (work.read t.fs) ([x].take (x :: xs).length) =
        some (S₁, [y]) := by
      rw [List.take_of_length_le (by simp)]
      exact byteFold_cons _ _ _ _ hstep rfl
    have hadv := advance_process_room Config.params w (x :: xs).length dir work [] { t with din := [x] } hone
      (by rw [hdout]; simp [Params.doutDepth])
    have hnext : step (supplyByte Config.params x t) =
        .next (advance Config.params ⟨w, (x :: xs).length, .process dir work []⟩ { t with din := [x] }) := by
      rw [supplyByte_empty x hdin]
      exact step_busy hr hf hp
    rw [serve, hnext, hadv]
    cases xs with
    | nil =>
      simp only [byteFold, Option.some.injEq, Prod.mk.injEq] at hrest
      obtain ⟨rfl, rfl⟩ := hrest
      simp [takeByte, hdout, serve, status, hdin]
    | cons x' xs' =>
      have hmore : ¬(x :: x' :: xs').length - [x].length = 0 := by simp
      have hleft : (x :: x' :: xs').length - [x].length = (x' :: xs').length := rfl
      have hdrop : List.drop (x :: x' :: xs').length [x] = [] := by simp
      have hrec := ih (by simp) (work.after S₁)
        { t with
          fs := work.fsAfter t.fs S₁
          progress := some ⟨w, (x' :: xs').length, .process dir (work.after S₁) []⟩
          din := []
          dout := [] }
        hr hf rfl rfl rfl (by simp only [Work.read_after]; exact hrest)
      simp only [if_neg hmore, takeByte, hdout, List.append_nil, List.nil_append]
      rw [hleft, hdrop, hrec]
      simp [hdin]

end Sys2Proof.Machine
end

