-- ==== Sys2Proof/Tests/Slice0.lean ====
section
/-! SUPPORT. Small tests. Expected values are the spec's own (spec/95_test_vectors.md, spec/30_encoding.md) or worked
by hand from its rules; each test names its source. The last part shows, for each statement with hypotheses, that
they can be met together. -/

namespace Sys2Proof.Tests

open Sys2Proof Sys2Proof.Machine

/-! ## WellFormed refuses what no word spells (R9, R76) -/

theorem test_wf_encrypt_too_long : (Instr.encrypt 16777216).wellFormed = false := by decide
theorem test_wf_decrypt_too_long : (Instr.decrypt 16777216).wellFormed = false := by decide
theorem test_wf_setkey_too_long : (Instr.setkey 16777216).wellFormed = false := by decide
theorem test_wf_setiv_too_long : (Instr.setiv 16777216).wellFormed = false := by decide
theorem test_wf_setblklen_too_big : (Instr.setblklen 16777216).wellFormed = false := by decide
theorem test_wf_reservedAB_other_row : (Instr.reservedAB 0x9#4 0#28).wellFormed = false := by decide
theorem test_wf_reservedCF_other_row : (Instr.reservedCF 0xB#4 0#28).wellFormed = false := by decide

/-! ## Words written out field by field: LEN, RSV, MODE, OP (R71, R75, R76, R83) -/

theorem test_decode_encrypt :
    decode 0b000000000000000000000101_00_00_0001#32 = .command (.encrypt 5) := by decide
theorem test_decode_decrypt :
    decode 0b000000000000000000010000_00_00_0010#32 = .command (.decrypt 16) := by decide
theorem test_decode_setkey :
    decode 0b000000000000000000100000_00_00_0011#32 = .command (.setkey 32) := by decide
theorem test_decode_setiv :
    decode 0b000000000000000000010000_00_00_0100#32 = .command (.setiv 16) := by decide
theorem test_decode_setmode :
    decode 0b000000000000000000000000_00_10_0101#32 = .command (.setmode 2#2) := by decide
theorem test_decode_cbon :
    decode 0b000000000000000000000000_00_00_0110#32 = .command .cbon := by decide
theorem test_decode_cboff :
    decode 0b000000000000000000000000_00_00_0111#32 = .command .cboff := by decide
theorem test_decode_resetfs :
    decode 0b000000000000000000000000_00_00_1000#32 = .command .resetfs := by decide
theorem test_decode_setblklen :
    decode 0b000000000000000011000000_00_00_1001#32 = .command (.setblklen 192) := by decide
/-- V-PRI-4's kind of word: RSV and LEN are nonzero, the opcode is reserved. -/
theorem test_decode_reservedZero :
    decode 0b000000000000000000000001_11_00_0000#32 = .command (.reservedZero 0x000001C#28) := by decide
theorem test_decode_reservedAB :
    decode 0b000000000000000000000000_00_00_1011#32 = .command (.reservedAB 0xB#4 0#28) := by decide
/-- V-DEC-4. -/
theorem test_decode_reservedCF :
    decode 0b111111111111111111111111_11_11_1111#32 = .command (.reservedCF 0xF#4 0xFFFFFFF#28) := by decide
/-- V-DEC-5, V-DEC-7, V-DEC-8, V-DEC-11: a nonzero reserved field of a defined opcode. -/
theorem test_decode_reserved_fields :
    decode 0x00000041#32 = .reservedField 0x00000041#32 ∧ decode 0x00000011#32 = .reservedField 0x00000011#32 ∧
    decode 0x00000115#32 = .reservedField 0x00000115#32 ∧ decode 0x00000106#32 = .reservedField 0x00000106#32 := by
  decide

/-! ## One step each -/

/-- The test primitive E_toy (95 §1). -/
def eToy (key : List Byte) (X : Block) : Block :=
  blockOfBytes ((List.range 16).map fun i =>
    X.toList.getD ((i + 1) % 16) 0#8 ^^^ (key.getD i 0#8 ^^^ key.getD (i + 16) 0#8) ^^^ 0xA5#8)

/-- E_toy with queues long enough for the vectors. -/
def toy : Params := ⟨eToy, 0, 31, 31, 0⟩

/-- Bytes of a hex string's value, the first byte the most significant. -/
def hex (n v : Nat) : List Byte := (List.range n).map fun i => BitVec.ofNat 8 (v / 256 ^ (n - 1 - i))

/-- KT (95 §1). -/
def keyT : List Byte := hex 16 0x0123456789abcdeffedcba9876543210

/-- IVT (95 §1). -/
def ivT : Block := blockOfBytes (hex 16 0xf0f1f2f3f4f5f6f7f8f9fafbfcfdfeff)

/-- The state after BOOT(m) (95 §1). -/
def boot (mode : Mode) : State :=
  { State.reset with
    mode := mode, cb := true, key := keyOfBytes keyT, keyLen := .key16, iv := ivT, ivv := true, fs := initFS ivT }

/-- The state after BOOT(CTR) and `ENCRYPT 5` (V-CTR-1). -/
def boot5 : State := { boot .ctr with fs := ⟨ivT, blockOfBytes (hex 16 0x55741336d9f89fb2a283e4c12e0f6845), 5#4⟩ }

/-- The next state of an outcome. -/
def nextOf : Host.Outcome State Fault Refusal → Option State
  | .next t => some t
  | .fault _ => none
  | .refused _ => none

/-- V-CFB-1, second line: over a block boundary in CFB. -/
theorem test_encrypt_cfb :
    let t := processCommand toy 0x00000C01#32 .enc 12
      { boot .cfb with
        fs := ⟨ivT, blockOfBytes (hex 16 0x55751135ddf89fb2a283e4c12e0f6845), 5#4⟩
        din := hex 12 0x05060708090a0b0c0d0e0f10 }
    t.dout = hex 12 0xfd99b5aa8aeeca2202664ac1 ∧ t.err = .ok ∧ t.progress = none ∧
    t.fs = ⟨blockOfBytes (hex 16 0x55751135ddfd99b5aa8aeeca2202664a),
      blockOfBytes (hex 16 0xc197d51fd197dde0d197d51fd197dde0), 1#4⟩ := by
  decide +kernel

/-- V-OFB-1, second line: over a block boundary in OFB. -/
theorem test_encrypt_ofb :
    let t := processCommand toy 0x00000C01#32 .enc 12
      { boot .ofb with
        fs := ⟨ivT, blockOfBytes (hex 16 0x55741336d9f89fb2a283e4c12e0f6845), 5#4⟩
        din := hex 12 0x05060708090a0b0c0d0e0f10 }
    t.dout = hex 12 0xfd99b5aa8aeeca2202664ac0 ∧
    t.fs = ⟨blockOfBytes (hex 16 0x55741336d9f89fb2a283e4c12e0f6845),
      blockOfBytes (hex 16 0xd095d61bd491dae8d89dde13dc99d2e0), 1#4⟩ := by
  decide +kernel

/-- V-CTR-2, first line: a whole block in CTR, after which the counter has moved on. -/
theorem test_decrypt_ctr :
    let t := processCommand toy 0x00001002#32 .dec 16
      { boot .ctr with din := hex 16 0x55751135ddfd99b5aa8aeeca2202664a }
    t.dout = hex 16 0x000102030405060708090a0b0c0d0e0f ∧
    t.fs = ⟨blockOfBytes (hex 16 0xf0f1f2f3f4f5f6f7f8f9fafbfcfdff00), zeroBlock, 0#4⟩ := by
  decide +kernel

/-- V-CFB-5, second line: DECRYPT feeds its input byte back. -/
theorem test_decrypt_cfb :
    let t := processCommand toy 0x00000102#32 .dec 1
      { boot .cfb with fs := ⟨ivT, blockOfBytes (hex 16 0x55741336d9f89fb2a283e4c12e0f6845), 1#4⟩, din := [0x75#8] }
    t.dout = [0x01#8] ∧ t.fs = ⟨ivT, blockOfBytes (hex 16 0x55751336d9f89fb2a283e4c12e0f6845), 2#4⟩ := by
  decide +kernel

/-- V-SES-4: the same key again still resets FS. -/
theorem test_setkey_resets_fs :
    nextOf (exec (.setkey 16) { boot5 with din := keyT }) = some (boot .ctr) := by decide +kernel
/-- V-SES-2: an illegal length changes nothing and pops its payload. -/
theorem test_setkey_bad_length :
    nextOf (exec (.setkey 15) { boot5 with din := hex 15 0 }) = some { boot5 with err := .keyLength } := by
  decide +kernel

/-- V-SES-6. -/
theorem test_setiv :
    (nextOf (exec (.setiv 16) { boot5 with din := List.replicate 16 0xFF#8 })).map State.fs =
      some ⟨Vector.replicate 16 0xFF#8, zeroBlock, 0#4⟩ := by decide +kernel
/-- V-DEC-19: LEN = 17 is IV_LENGTH and pops 17 bytes. -/
theorem test_setiv_bad_length :
    nextOf (exec (.setiv 17) { boot5 with din := hex 18 7 }) = some { boot5 with din := [7#8], err := .ivLength } := by
  decide +kernel

/-- V-DEC-10. -/
theorem test_setmode_cfb :
    nextOf (exec (.setmode 2#2) { boot5 with err := .noKey }) = some { boot .cfb with err := .ok } := by decide +kernel
/-- V-DEC-9: 3 is MODE_VALUE and FS stays. -/
theorem test_setmode_blk : nextOf (exec (.setmode 3#2) boot5) = some { boot5 with err := .modeValue } := by
  decide +kernel

/-- P4: CBON leaves FS alone. -/
theorem test_cbon : nextOf (exec .cbon { boot5 with cb := false }) = some boot5 := by decide +kernel
/-- V-SES-10. -/
theorem test_cboff : nextOf (exec .cboff boot5) = some { boot5 with cb := false } := by decide +kernel
/-- V-SES-12: from reset RESETFS leaves IVV 0. -/
theorem test_resetfs : nextOf (exec .resetfs boot5) = some (boot .ctr) := by decide +kernel
/-- V-SES-13. -/
theorem test_setblklen : nextOf (exec (.setblklen 192) boot5) = some boot5 := by decide +kernel
/-- V-DEC-1. -/
theorem test_reservedZero :
    nextOf (exec (.reservedZero 0#28) boot5) = some { boot5 with err := .illegalOp } := by decide +kernel
/-- V-DEC-2. -/
theorem test_reservedAB :
    nextOf (exec (.reservedAB 0xA#4 0#28) boot5) = some { boot5 with err := .illegalOp } := by decide +kernel
/-- V-DEC-3. -/
theorem test_reservedCF :
    nextOf (exec (.reservedCF 0xF#4 1#28) boot5) = some { boot5 with err := .illegalOp } := by decide +kernel

/-- V-PRI-1: from reset the word 0x000000C1 is RESERVED_FIELD, before the state is looked at. -/
theorem test_reserved_field_first :
    (nextOf (step (State.reset.withFetchWord 32 0x000000C1))).map State.err = some .reservedField := by
  decide +kernel

/-- The CSRs at the end of P1. -/
theorem test_csrs_of_p1 :
    let s := { boot5 with
      fs := ⟨blockOfBytes (hex 16 0xf0f1f2f3f4f5f6f7f8f9fafbfcfdff00),
        blockOfBytes (hex 16 0x55741336d9f89fb2a283e4c12e0e9745), 4#4⟩ }
    (csrRead 0#6 s).1 = 0x0000002C#32 ∧ (csrRead 2#6 s).1 = 0x00000004#32 ∧ (csrRead 7#6 s).1 = 0xFCFDFF00#32 ∧
    (csrRead 11#6 s).1 = 0x2E0E9745#32 ∧ (csrRead 15#6 s).1 = 0xFCFDFEFF#32 := by
  decide +kernel

/-- V-RST-3: RST during a call that has taken 7 of its 20 bytes. -/
theorem test_reset_abandons_the_call :
    let s := { boot5 with progress := some ⟨0x00001401#32, 13, .process .enc .live []⟩, din := [1#8] }
    ownerAct Config.params .releaseRst (ownerAct Config.params .assertRst s) = State.reset := by
  decide +kernel

/-! ## Witnesses: the hypotheses of each statement, met together -/

/-- A call of five bytes that waits for its last two (BUSY = 1). -/
def waiting : State :=
  { boot .ctr with
    fs := ⟨ivT, blockOfBytes (hex 16 0x55741336d9f89fb2a283e4c12e0f6845), 3#4⟩
    progress := some ⟨0x00000501#32, 2, .process .enc .live []⟩ }

/-- Room for one byte in an empty DOUT, whatever its depth (R10). -/
theorem room_one {s : State} (h : s.dout = []) : s.RoomFor 1 := by
  simp [State.RoomFor, h, Params.doutDepth]

theorem room_zero {s : State} (h : s.dout = []) : s.RoomFor 0 := by simp [State.RoomFor, h]

theorem test_witness_DecodeOfEncodeIsTheCommand :
    (Instr.encrypt 0).wellFormed = true ∧ (Instr.encrypt 16777215).wellFormed = true ∧
    (Instr.decrypt 16777215).wellFormed = true ∧ (Instr.setkey 16777215).wellFormed = true ∧
    (Instr.setiv 16777215).wellFormed = true ∧ (Instr.setmode 3#2).wellFormed = true ∧
    (Instr.setblklen 16777215).wellFormed = true ∧ (Instr.reservedAB 0xA#4 0#28).wellFormed = true ∧
    (Instr.reservedAB 0xB#4 0xFFFFFFF#28).wellFormed = true ∧ (Instr.reservedCF 0xC#4 0#28).wellFormed = true ∧
    (Instr.reservedCF 0xF#4 0xFFFFFFF#28).wellFormed = true := by decide

theorem test_witness_EncodeOfDecodeIsTheWord :
    decode 0xFFFFFF01#32 = .command (.encrypt 16777215) := by decide

/-- A word of no row, and a word of each row at an edge of its free fields. -/
theorem test_witness_MatchMaskTableNamesTheCommand :
    (∀ row ∈ opcodeRows, 0x00000041#32 &&& row.mask ≠ row.pattern) ∧
    (∀ e ∈ [(0xFFFFFF01#32, "ENCRYPT"), (0x00000035#32, "SETMODE"), (0x00000006#32, "CBON"),
        (0xFFFFFFF0#32, "reserved__OP___0x0"), (0xFFFFFFFB#32, "reserved__OP___0xA..0xB"),
        (0xFFFFFFFF#32, "reserved__OP___0xC..0xF")],
      ∃ row ∈ opcodeRows, row.mnemonic = e.2 ∧ e.1 &&& row.mask = row.pattern) := by decide

/-- A word in each clause: opcode 0, opcodes A and F; RSV, MODE and LEN nonzero where they must be 0; none of these. -/
theorem test_witness_WordTestsInOrder :
    opField 0x000001C0#32 = 0x0#4 ∧ (opField 0x0000000A#32).toNat = 0xA ∧ (opField 0xFFFFFFFF#32).toNat = 0xF ∧
    (opField 0x00000041#32 = 0x1#4 ∧ rsvField 0x00000041#32 ≠ 0#2) ∧
    (opField 0x00000019#32 = 0x9#4 ∧ modeField 0x00000019#32 ≠ 0#2) ∧
    (opField 0x00000105#32 = 0x5#4 ∧ lenField 0x00000105#32 ≠ 0#24) ∧
    (opField 0xFFFFFF09#32 = 0x9#4 ∧ rsvField 0xFFFFFF09#32 = 0#2 ∧ modeField 0xFFFFFF09#32 = 0#2) := by decide

theorem test_witness_StepRunsTheDecodedCommand :
    let s := { boot5 with cmd := [0x00000501#32] }
    s.Idle ∧ s.cmd = [0x00000501#32] ∧ decode 0x00000501#32 = .command (.encrypt 5) := by decide

/-- A data-bearing word with its one byte there, and without it; one with the longest payload there is; a word that pops
nothing; and a drain that gets its last byte, with one byte more behind it, or one byte too few. -/
theorem test_witness_ReservedFieldWordIsRejected :
    (let s := { boot5 with cmd := [0x00000141#32], din := [0#8] }
     s.Idle ∧ decode 0x00000141#32 = .reservedField 0x00000141#32 ∧ dataBearing (opField 0x00000141#32) = true ∧
     (lenField 0x00000141#32).toNat ≤ s.din.length ∧
     { s with din := [] }.Idle ∧ { s with din := [] }.din.length < (lenField 0x00000141#32).toNat) ∧
    (let s := { boot5 with cmd := [0xFFFFFF41#32], din := [0#8] }
     s.Idle ∧ decode 0xFFFFFF41#32 = .reservedField 0xFFFFFF41#32 ∧ dataBearing (opField 0xFFFFFF41#32) = true ∧
     s.din.length < (lenField 0xFFFFFF41#32).toNat) ∧
    (let s := { boot5 with cmd := [0x00000106#32] }
     s.Idle ∧ decode 0x00000106#32 = .reservedField 0x00000106#32 ∧ dataBearing (opField 0x00000106#32) = false) ∧
    (let s := { waiting with progress := some ⟨0x00000241#32, 2, .drain .reservedField⟩ }
     s.rst = false ∧ s.fault = false ∧ s.progress = some ⟨0x00000241#32, 2, .drain .reservedField⟩ ∧
     2 ≤ { s with din := [1#8, 2#8, 3#8] }.din.length ∧ { s with din := [1#8] }.din.length < 2) := by decide

theorem test_witness_IdleEngineWaitsForACommandWord : State.reset.Idle ∧ State.reset.cmd = [] := by decide

/-- The waiting call meets the invariant. -/
theorem waiting_inv : waiting.Inv where
  fsOk := by decide
  keyTail := by
    intro k hk
    have hk : 16 ≤ k := hk
    show (keyOfBytes keyT).toList.getD k 0#8 = 0#8
    rw [keyOfBytes, arrayOfBytes_getD 32 keyT k (by decide)]
    exact List.getD_eq_default keyT 0#8 hk
  ivUnset := by decide
  noFault := rfl
  cmdBound := Nat.zero_le _
  dinBound := Nat.zero_le _
  doutBound := Nat.zero_le _
  progressOk := by
    intro p hp
    cases hp
    exact ⟨⟨5, by decide, by decide, by decide⟩, by decide, rfl, Nat.zero_le _, Nat.zero_le _, Nat.zero_le _,
      by decide⟩
  inReset := by decide

theorem test_witness_StepKeepsTheInvariant : waiting.Inv ∧ ∃ t, step waiting = .next t :=
  ⟨waiting_inv, _, step_busy rfl rfl rfl⟩

theorem test_witness_HostActKeepsTheInvariant :
    waiting.Inv ∧ ∃ t, hostAct .owner (.supplyByte 0#8) waiting = .next t := ⟨waiting_inv, _, rfl⟩

/-- For FeedbackStateInvariant too. -/
theorem test_witness_ReachableEngineNeverStops : Reachable State.reset := .reset

theorem test_witness_HardwareResetFromAnyState : HostAction.writeCmd 0x00000006#32 ≠ .releaseRst := by decide

theorem test_witness_RaisingTheFaultStopsTheEngine : waiting.rst = false ∧ waiting.busy = true ∧ boot5.rst = false := by
  decide

theorem test_witness_FaultIsStickyUntilReset :
    ({ boot5 with fault := true }.rst = false ∧ { boot5 with fault := true }.fault = true ∧
      HostAction.writeCmd 0#32 ≠ .assertRst) ∧
    exec .cbon { boot5 with fault := true } = .next (status .ok { boot5 with fault := true, cb := true }) :=
  ⟨by decide, rfl⟩

/-- V-PRI-3: the rejected call of two bytes from reset; V-DEC-7's word. -/
theorem test_witness_RejectionIsPrecise :
    let s := { State.reset with din := [1#8, 2#8] }
    s.Idle ∧ (Instr.encrypt 2).payloadBytes ≤ s.din.length ∧
    nextOf (exec (.encrypt 2) s) = some { State.reset with err := .notStreaming } ∧
    checkProcess s ≠ .ok ∧ decode 0x00000211#32 = .reservedField 0x00000211#32 ∧
    (lenField 0x00000211#32).toNat ≤ s.din.length := by decide +kernel

/-- RESETFS, and a SETKEY that goes on with its last byte, change FS. -/
theorem test_witness_OnlyTheseCommandsWriteFS :
    (nextOf (exec .resetfs boot5)).map State.fs = some (initFS ivT) ∧ boot5.fs ≠ initFS ivT ∧
    (let s := { boot5 with progress := some ⟨0x00001003#32, 1, .loadKey (hex 15 0)⟩, din := [0#8] }
     (nextOf (step s)).map State.fs = some (initFS ivT)) := by decide +kernel

/-- Each command writes its setting; SETKEY and SETIV also when they go on with their last byte. -/
theorem test_witness_OnlyItsCommandWritesEachSetting :
    (nextOf (exec (.setmode 0#2) State.reset)).map State.mode = some .ctr ∧
    (nextOf (exec .cbon State.reset)).map State.cb = some true ∧
    (nextOf (exec (.setkey 16) { State.reset with din := keyT })).map State.keyLen = some .key16 ∧
    (nextOf (exec (.setiv 16) { State.reset with din := hex 16 0 })).map State.ivv = some true ∧
    (let s := { State.reset with progress := some ⟨0x00001003#32, 1, .loadKey (hex 15 0)⟩, din := [0#8] }
     (nextOf (step s)).map State.keyLen = some .key16) ∧
    (let s := { State.reset with progress := some ⟨0x00001004#32, 1, .loadIv (hex 15 0)⟩, din := [0#8] }
     (nextOf (step s)).map State.ivv = some true) := by decide +kernel

theorem test_witness_EveryCommandCompletes :
    (boot5.Idle ∧ Instr.cbon.payloadBytes ≤ boot5.din.length) ∧
    (let s := { boot5 with din := [0#8] }
     s.Idle ∧ (Instr.encrypt 1).payloadBytes ≤ s.din.length ∧ s.RoomFor (Instr.encrypt 1).payloadBytes) :=
  ⟨by decide, by decide, by decide, room_one rfl⟩

/-- For ENCRYPT and DECRYPT alike, and for n = 0 and n = 1. -/
theorem test_witness_EncryptResult :
    boot5.Idle ∧ boot5.Ready ∧ 0 ≤ boot5.din.length ∧ boot5.RoomFor 0 ∧
    (let s := { boot5 with din := [0#8] }
     s.Idle ∧ s.Ready ∧ 1 ≤ s.din.length ∧ s.RoomFor 1) :=
  ⟨by decide, by decide, by decide, room_zero rfl, by decide, by decide, by decide, room_one rfl⟩

theorem test_witness_DecryptResult :
    let s := { boot5 with cb := false, din := [0#8] }
    s.Idle ∧ s.Ready ∧ 1 ≤ s.din.length ∧ s.RoomFor 1 := ⟨by decide, by decide, by decide, room_one rfl⟩

/-- Each of the three rejections. -/
theorem test_witness_UnconfiguredCallIsRejected :
    (State.reset.Idle ∧ State.reset.mode = .blk) ∧
    (let s := { State.reset with mode := .ctr }
     s.Idle ∧ s.mode ≠ .blk ∧ s.keyLen = .noKey) ∧
    (let s := { State.reset with mode := .ctr, keyLen := .key16 }
     s.Idle ∧ s.mode ≠ .blk ∧ s.keyLen ≠ .noKey ∧ s.ivv = false) := by decide

theorem test_witness_EmptyCallChangesOnlyErr : boot5.Idle ∧ boot5.Ready := by decide

theorem test_witness_ChunkSizeIndependence :
    boot5.Idle ∧ boot5.Ready ∧ boot5.cb = true ∧ boot5.din = [] ∧ boot5.dout = [] ∧
    [[1#8], [2#8, 3#8]] ≠ [] ∧ [[1#8, 2#8, 3#8]] ≠ [] ∧
    [[1#8], [2#8, 3#8]].flatten = [[1#8, 2#8, 3#8]].flatten := by decide

theorem test_witness_RoundTripInAnyChunking :
    let s := { boot5 with err := .noKey }
    boot5.Idle ∧ s.Idle ∧ boot5.Ready ∧ s.Ready ∧ boot5.cb = true ∧ s.cb = true ∧ boot5.din = [] ∧ boot5.dout = [] ∧
    s.din = [] ∧ s.dout = [] ∧ s.mode = boot5.mode ∧ keyInUse s = keyInUse boot5 ∧ s.iv = boot5.iv ∧
    s.fs = boot5.fs := by decide

theorem test_witness_DirectionIrrelevantInCtrAndOfb :
    let s := { boot5 with din := [0#8] }
    let u := { s with mode := .ofb }
    (s.Idle ∧ s.Ready ∧ s.mode = .ctr ∧ 1 ≤ s.din.length ∧ s.RoomFor 1) ∧
    (u.Idle ∧ u.Ready ∧ u.mode = .ofb ∧ 1 ≤ u.din.length ∧ u.RoomFor 1) :=
  ⟨⟨by decide, by decide, rfl, by decide, room_one rfl⟩, by decide, by decide, rfl, by decide, room_one rfl⟩

/-- Two states with different FS. -/
theorem test_witness_CallsWithoutContinuousBufferRepeat :
    let s := { boot5 with cb := false, din := [0#8] }
    let u := { boot .ctr with cb := false, din := [0#8, 9#8] }
    s.Idle ∧ u.Idle ∧ s.Ready ∧ u.Ready ∧ s.cb = false ∧ u.cb = false ∧ u.mode = s.mode ∧ u.key = s.key ∧
    u.keyLen = s.keyLen ∧ u.iv = s.iv ∧ 1 ≤ s.din.length ∧ u.din.take 1 = s.din.take 1 ∧ s.RoomFor 1 ∧ u.RoomFor 1 :=
  ⟨by decide, by decide, by decide, by decide, rfl, rfl, rfl, rfl, rfl, rfl, by decide, rfl, room_one rfl, room_one rfl⟩

/-- From the last byte of a block, and the empty call at a boundary. -/
theorem test_witness_ExactBlockBoundaryLeavesNothingPending :
    (let s := { boot5 with fs := { boot5.fs with cur := 15#4 }, din := [0#8] }
     s.Idle ∧ s.Ready ∧ s.cb = true ∧ s.fs.Ok ∧ 1 ≤ s.din.length ∧ s.RoomFor 1 ∧
     (s.fs.cur.toNat + 1) % blockBytes = 0) ∧
    (let s := boot .ctr
     s.Idle ∧ s.Ready ∧ s.cb = true ∧ s.fs.Ok ∧ 0 ≤ s.din.length ∧ s.RoomFor 0 ∧
     (s.fs.cur.toNat + 0) % blockBytes = 0) :=
  ⟨⟨by decide, by decide, rfl, by decide, by decide, room_one rfl, by decide⟩,
    by decide, by decide, rfl, by decide, by decide, room_zero rfl, by decide⟩

theorem test_witness_OutputDependsOnInputPrefix :
    let s := { boot5 with din := [7#8] }
    s.Idle ∧ s.Ready ∧ 1 ≤ s.din.length ∧ 1 ≤ [7#8, 8#8].length ∧ s.RoomFor 1 ∧ 1 ≤ 1 ∧
    [7#8, 8#8].take 1 = s.din.take 1 :=
  ⟨by decide, by decide, by decide, by decide, room_one rfl, by decide, rfl⟩

theorem test_witness_CounterIncrementsAtBlockCompletion :
    ({ boot5.fs with cur := 15#4 } : FeedbackState).cur = 15#4 := rfl

theorem test_witness_CounterWrapsSilently :
    let s := { boot5 with fs := ⟨Vector.replicate blockBytes 0xFF#8, zeroBlock, 15#4⟩, din := [0#8] }
    s.fs.cur = 15#4 ∧ s.fs.reg = Vector.replicate blockBytes 0xFF#8 ∧ s.Idle ∧ s.Ready ∧ s.mode = .ctr ∧ s.cb = true ∧
    1 ≤ s.din.length ∧ s.RoomFor 1 :=
  ⟨rfl, rfl, by decide, by decide, rfl, rfl, by decide, room_one rfl⟩

/-- A block's last byte, and a block's worth of bytes from a block boundary. -/
theorem test_witness_OfbFeedsBackTheKeystreamBlock :
    ({ boot5.fs with cur := 15#4 } : FeedbackState).cur = 15#4 ∧ (initFS ivT).cur = 0#4 ∧
    (hex 16 1).length = blockBytes := by decide

/-- A block's first byte and its last but one. -/
theorem test_witness_CfbKeepsTheCiphertextByte :
    (initFS ivT).cur.toNat < 15 ∧ ({ boot5.fs with cur := 14#4 } : FeedbackState).cur.toNat < 15 := by decide

theorem test_witness_CfbFeedsBackTheCiphertextBlock : (initFS ivT).cur = 0#4 ∧ (hex 16 2).length = blockBytes := by
  decide

/-- One byte and fifteen. -/
theorem test_witness_RegisterHeldInsideABlock :
    (initFS ivT).cur = 0#4 ∧ (0 < [1#8].length ∧ [1#8].length < blockBytes) ∧
    (0 < (hex 15 1).length ∧ (hex 15 1).length < blockBytes) := by decide

/-- Two primitives that differ, on a pending block and on a new one; and a byte that is not a block's last. -/
theorem test_witness_PrimitiveSeesOnlyKeyAndRegister :
    (boot5.fs.cur = 0#4 → eToy keyT boot5.fs.reg = (fun _ X => X : List Byte → Block → Block) keyT boot5.fs.reg) ∧
    ((initFS ivT).cur = 0#4 →
      eToy keyT (initFS ivT).reg =
        (fun k X => if k = [] then X else eToy k X : List Byte → Block → Block) keyT (initFS ivT).reg) ∧
    boot5.fs.cur ≠ 15#4 := by
  decide +kernel

theorem test_witness_BlockIntegersAreBigEndian :
    0 < 2 ^ (8 * blockBytes) ∧ 2 ^ (8 * blockBytes) - 1 < 2 ^ (8 * blockBytes) := by decide

/-- A call with nothing pending, and one with a byte pending and DOUT full. -/
theorem test_witness_InputUnderrunWaits :
    (waiting.rst = false ∧ waiting.fault = false ∧
      waiting.progress = some ⟨0x00000501#32, 2, .process .enc .live []⟩ ∧ waiting.din = []) ∧
    (let s := { waiting with
      progress := some ⟨0x00000501#32, 2, .process .enc .live [9#8]⟩
      dout := List.replicate Config.params.doutDepth 2#8 }
     s.rst = false ∧ s.fault = false ∧ s.progress = some ⟨0x00000501#32, 2, .process .enc .live [9#8]⟩ ∧ s.din = [] ∧
     Config.params.doutDepth ≤ s.dout.length) :=
  ⟨by decide, rfl, rfl, rfl, rfl, by simp⟩

/-- A full DOUT of any depth: with two bytes pending, at the end of a call and with input still to take and none on DIN;
with a byte on DIN and no room to run ahead (as many bytes pending as DOUT_DEPTH); with the host taking none of DOUT,
its oldest byte, or all of it while more bytes are pending than DOUT holds; and a call that starts with DOUT full. -/
theorem test_witness_FullOutputQueueWaits :
    (∀ left : Nat,
      let s := { waiting with
        progress := some ⟨0x00000501#32, left, .process .enc .live [9#8, 8#8]⟩
        dout := 1#8 :: List.replicate Config.params.doutExtra 2#8 }
      s.rst = false ∧ s.fault = false ∧ s.progress = some ⟨0x00000501#32, left, .process .enc .live [9#8, 8#8]⟩ ∧
      s.dout = [] ++ (1#8 :: List.replicate Config.params.doutExtra 2#8) ∧
      s.dout = [1#8] ++ List.replicate Config.params.doutExtra 2#8 ∧ s.dout.length = Config.params.doutDepth ∧
      s.din = []) ∧
    (let pending := 9#8 :: List.replicate Config.params.doutExtra 8#8
     let s := { waiting with
       progress := some ⟨0x00000501#32, 2, .process .enc .live pending⟩
       din := [7#8]
       dout := List.replicate Config.params.doutDepth 2#8 }
     s.rst = false ∧ s.fault = false ∧ s.progress = some ⟨0x00000501#32, 2, .process .enc .live pending⟩ ∧
     s.dout.length = Config.params.doutDepth ∧ s.din ≠ [] ∧ mayPop Config.params pending = false) ∧
    (let pending := 9#8 :: 8#8 :: List.replicate Config.params.doutExtra 7#8
     let taken := List.replicate Config.params.doutDepth 2#8
     let s := { waiting with progress := some ⟨0x00000501#32, 2, .process .enc .live pending⟩, dout := taken }
     s.rst = false ∧ s.fault = false ∧ s.progress = some ⟨0x00000501#32, 2, .process .enc .live pending⟩ ∧
     s.dout = taken ++ [] ∧ s.dout.length = Config.params.doutDepth ∧ taken.length < pending.length) ∧
    (let s := { boot5 with dout := List.replicate Config.params.doutDepth 2#8 }
     s.Idle ∧ s.Ready ∧ s.dout.length ≤ Config.params.doutDepth) :=
  ⟨fun _ => ⟨rfl, rfl, rfl, rfl, rfl, by simp [Params.doutDepth], rfl⟩,
    ⟨rfl, rfl, rfl, by simp, by simp, by simp [mayPop, Params.doutDepth]⟩,
    ⟨rfl, rfl, rfl, by simp, by simp, by simp [Params.doutDepth]⟩, by decide, by decide, by simp⟩

/-- A SETKEY whose last byte comes late, a call of one late byte; a SETKEY, a SETIV, a rejected command
and a call that wait for two bytes and get one or none; a command that is no accepted call, and DOUT with room. -/
theorem test_witness_SupplyTimingIsIrrelevant :
    (State.reset.Idle ∧ (Instr.setkey 16).payloadBytes = (hex 15 0).length + [0#8].length) ∧
    (boot5.Idle ∧ boot5.Ready ∧ (Instr.encrypt 1).payloadBytes = ([] : List Byte).length + [0#8].length ∧
      boot5.RoomFor (Instr.encrypt 1).payloadBytes) ∧
    (∀ task ∈ [Task.loadKey (hex 14 0), .loadIv (hex 14 0), .drain .noKey, .process .enc .live []],
      let s := { waiting with progress := some ⟨0x00001003#32, 2, task⟩ }
      s.rst = false ∧ s.fault = false ∧ s.progress = some ⟨0x00001003#32, 2, task⟩ ∧ [0#8].length < 2 ∧
      ([] : List Byte).length < 2) ∧ waiting.RoomFor (([] : List Byte).length + [0#8].length) :=
  ⟨by decide, ⟨by decide, by decide, rfl, room_one rfl⟩, by decide, room_one rfl⟩

theorem test_witness_ServedCallDeliversEveryByte :
    boot5.Idle ∧ boot5.Ready ∧ boot5.din = [] ∧ boot5.dout = [] := by decide

/-- The three legal lengths, and lengths on either side of them. -/
theorem test_witness_SetkeyEffect :
    (∀ n ∈ [16, 24, 32, 0, 15, 17, 23, 25, 31, 33], { boot5 with din := hex 33 1 }.Idle ∧
      n ≤ { boot5 with din := hex 33 1 }.din.length) ∧
    (∀ n ∈ [0, 15, 17, 23, 25, 31, 33], ¬(n = 16 ∨ n = 24 ∨ n = 32)) := by decide

theorem test_witness_SetivEffect :
    ∀ n ∈ [0, 15, 16, 17], { boot5 with din := hex 17 1 }.Idle ∧ n ≤ { boot5 with din := hex 17 1 }.din.length := by
  decide

/-- For SETMODE, CBON, CBOFF, RESETFS, SETBLKLEN and the reserved opcodes: an idle state; and words of opcodes 0, A
and F. -/
theorem test_witness_SessionEffects :
    boot5.Idle ∧ { boot5 with cmd := [0xFFFFFFFF#32] }.Idle ∧ opField 0x000001C0#32 = 0x0#4 ∧
    0xA ≤ (opField 0x0000000A#32).toNat ∧ 0xA ≤ (opField 0xFFFFFFFF#32).toNat := by decide

/-- Accepted SETKEY, SETIV and SETMODE, and a SETIV that goes on with its last byte. -/
theorem test_witness_KeyIvAndModeChangesResetFS :
    (∀ i ∈ [Instr.setkey 16, .setiv 16, .setmode 1#2],
      (nextOf (exec i { boot5 with din := hex 16 1 })).map State.progress = some none ∧
      (nextOf (exec i { boot5 with din := hex 16 1 })).map State.err = some .ok) ∧
    (let s := { boot5 with progress := some ⟨0x00001004#32, 1, .loadIv (hex 15 0)⟩, din := [0#8] }
     s.rst = false ∧ (nextOf (step s)).map State.progress = some none) := by decide +kernel

theorem test_witness_ConfigurationInAnyOrder :
    boot5.Idle ∧ streamingMode 2#2 = some .cfb ∧ (hex 32 1).length ∈ keyLengths ∧ (hex 16 1).length = blockBytes ∧
    [(Instr.setiv 16, hex 16 1), (.setmode 2#2, []), (.setkey (hex 32 1).length, hex 32 1)].Perm
      [(.setmode 2#2, []), (.setkey (hex 32 1).length, hex 32 1), (.setiv 16, hex 16 1)] := by decide +kernel

/-- For the CSR statements: idle and busy states, each key length, and the edges of the index ranges. -/
theorem test_witness_CsrMapWhenNotBusy :
    boot5.busy = false ∧ 16 ≤ (16#6 : BitVec 6).toNat ∧ 16 ≤ (63#6 : BitVec 6).toNat ∧
    boot5.keyLen.bits = 1#2 ∧ { boot5 with keyLen := .key24 }.keyLen.bits = 2#2 ∧
    { boot5 with keyLen := .key32 }.keyLen.bits = 3#2 := by decide

/-- A queue with room, a full one and an empty one, whatever the depths are. -/
theorem test_witness_HostActsChangeOnlyTheirQueue :
    (boot5.rst = false ∧ boot5.cmd.length < Config.params.cmdDepth ∧ boot5.din.length < Config.params.dinDepth ∧
      boot5.dout = []) ∧
    (let s := { boot5 with
      cmd := List.replicate Config.params.cmdDepth 0#32
      din := List.replicate Config.params.dinDepth 0#8
      dout := [1#8] }
     s.rst = false ∧ Config.params.cmdDepth ≤ s.cmd.length ∧ Config.params.dinDepth ≤ s.din.length ∧
     s.dout = 1#8 :: []) :=
  ⟨⟨rfl, Nat.succ_pos _, Nat.succ_pos _, rfl⟩, rfl, by simp, by simp, rfl⟩

theorem test_witness_BlockCsrPacking : boot5.busy = false ∧ 0 < 4 ∧ 3 < 4 := by decide

theorem test_witness_BusyReadsOfBusyFaultAndBlksz : waiting.busy = true := by decide

end Sys2Proof.Tests
end

/-! PROOF. The acts of the host: what each does to the engine's state (R43, R50 to R54, R63, R170), and that each keeps
the invariant. -/

namespace Sys2Proof.Machine

/-- A CSR read uses up a draw while BUSY = 1 and changes nothing else (R43, R51). -/
theorem csrRead_state (index : BitVec 6) (s : State) :
    (csrRead index s).2 = { s with draws := if s.busy then s.draws + 1 else s.draws } := by
  unfold csrRead
  cases s.busy <;> rfl

theorem writeCmd_of_room {P : Params} {s : State} (w : Word) (h : s.cmd.length < P.cmdDepth) :
    writeCmd P w s = { s with cmd := s.cmd ++ [w] } := if_pos h

theorem writeCmd_of_full {P : Params} {s : State} (w : Word) (h : P.cmdDepth ≤ s.cmd.length) :
    writeCmd P w s = s := if_neg (Nat.not_lt.mpr h)

theorem supplyByte_of_room {P : Params} {s : State} (b : Byte) (h : s.din.length < P.dinDepth) :
    supplyByte P b s = { s with din := s.din ++ [b] } := if_pos h

theorem supplyByte_of_full {P : Params} {s : State} (b : Byte) (h : P.dinDepth ≤ s.din.length) :
    supplyByte P b s = s := if_neg (Nat.not_lt.mpr h)

theorem takeByte_of_cons {s : State} {y : Byte} {ys : List Byte} (h : s.dout = y :: ys) :
    takeByte s = some (y, { s with dout := ys }) := by
  simp only [takeByte, h]

theorem takeByte_of_nil {s : State} (h : s.dout = []) : takeByte s = none := by
  simp only [takeByte, h]

theorem ownerAct_writeCmd (P : Params) {s : State} (hr : s.rst = false) (w : Word) :
    ownerAct P (.writeCmd w) s = writeCmd P w s := by
  simp only [ownerAct, hr, Bool.false_eq_true, if_false]

theorem ownerAct_supplyByte (P : Params) {s : State} (hr : s.rst = false) (b : Byte) :
    ownerAct P (.supplyByte b) s = supplyByte P b s := by
  simp only [ownerAct, hr, Bool.false_eq_true, if_false]

theorem ownerAct_takeByte_of_cons (P : Params) {s : State} {y : Byte} {ys : List Byte} (h : s.dout = y :: ys) :
    ownerAct P .takeByte s = { s with dout := ys } := by
  simp only [ownerAct, takeByte_of_cons h]

theorem ownerAct_takeByte_of_nil (P : Params) {s : State} (h : s.dout = []) : ownerAct P .takeByte s = s := by
  simp only [ownerAct, takeByte_of_nil h]

theorem ownerAct_readCsr (P : Params) (index : BitVec 6) (s : State) :
    ownerAct P (.readCsr index) s = { s with draws := if s.busy then s.draws + 1 else s.draws } :=
  csrRead_state index s

/-- While RST is asserted a command word, an input byte or a take does nothing (R170). -/
theorem ownerAct_queue_of_rst (P : Params) {s : State} (hs : s.Inv) (hr : s.rst = true) :
    (∀ w, ownerAct P (.writeCmd w) s = s) ∧ (∀ b, ownerAct P (.supplyByte b) s = s) ∧ ownerAct P .takeByte s = s := by
  have hdout : s.dout = [] := by rw [hs.inReset hr]; rfl
  refine ⟨fun w => ?_, fun b => ?_, ownerAct_takeByte_of_nil P hdout⟩ <;> simp only [ownerAct, hr, if_true]

/-- Settles O58: one rule for each act of the host. -/
theorem hostActsChangeOnlyTheirQueue : Obligations.HostActsChangeOnlyTheirQueue := by
  intro s
  refine ⟨fun index => ⟨csrRead_state index s, congrArg _ (ownerAct_readCsr _ index s)⟩, fun hr => ⟨?_, ?_, ?_, ?_⟩,
    fun y ys hd => ⟨takeByte_of_cons hd, congrArg _ (ownerAct_takeByte_of_cons _ hd)⟩,
    fun hd => ⟨takeByte_of_nil hd, congrArg _ (ownerAct_takeByte_of_nil _ hd)⟩⟩
  · intro w hroom
    rw [hostAct, ownerAct_writeCmd _ hr, writeCmd_of_room w hroom]
  · intro w hfull
    rw [hostAct, ownerAct_writeCmd _ hr, writeCmd_of_full w hfull]
  · intro b hroom
    rw [hostAct, ownerAct_supplyByte _ hr, supplyByte_of_room b hroom]
  · intro b hfull
    rw [hostAct, ownerAct_supplyByte _ hr, supplyByte_of_full b hfull]

/-- Out of reset, the queues may hold anything within their depths, and the draw counter any number: the invariant says
nothing more about them. -/
theorem State.Inv.withQueues {s : State} (hs : s.Inv) (hr : s.rst = false) {cmd : List Word} {din dout : List Byte}
    (draws : Nat) (hcmd : cmd.length ≤ Config.params.cmdDepth) (hdin : din.length ≤ Config.params.dinDepth)
    (hdout : dout.length ≤ Config.params.doutDepth) :
    State.Inv { s with cmd := cmd, din := din, dout := dout, draws := draws } :=
  State.Sound.inv ⟨hs.fsOk, hs.keyTail, hs.ivUnset, hs.noFault, hcmd, hdin, hdout, hr⟩
    fun p hp => (hs.progressOk p hp).congr rfl rfl rfl rfl

/-- The reset state meets the invariant, whatever the level of RST and the draw counter (R44, R170). -/
theorem reset_inv (rst : Bool) (draws : Nat) : State.Inv { State.reset with rst := rst, draws := draws } where
  fsOk := fun _ => rfl
  keyTail := fun k _ => by
    show (Vector.replicate 32 0#8).toList.getD k 0#8 = 0#8
    rw [Vector.toList_replicate, List.getD_eq_getElem?_getD, List.getElem?_getD_replicate_default_eq]
  ivUnset := fun _ => rfl
  noFault := rfl
  cmdBound := Nat.zero_le _
  dinBound := Nat.zero_le _
  doutBound := Nat.zero_le _
  progressOk := fun _ hp => by cases hp
  inReset := fun hr => by cases hr; rfl

/-- An act on a queue keeps the invariant of an engine that is out of reset. -/
theorem queueAct_inv {s : State} (hs : s.Inv) (hr : s.rst = false) :
    (∀ w, (ownerAct Config.params (.writeCmd w) s).Inv) ∧ (∀ b, (ownerAct Config.params (.supplyByte b) s).Inv) ∧
      (ownerAct Config.params .takeByte s).Inv := by
  refine ⟨fun w => ?_, fun b => ?_, ?_⟩
  · rw [ownerAct_writeCmd _ hr]
    rcases Nat.lt_or_ge s.cmd.length Config.params.cmdDepth with hroom | hfull
    · rw [writeCmd_of_room w hroom]
      exact hs.withQueues hr s.draws (by rw [List.length_append]; exact hroom) hs.dinBound hs.doutBound
    · rwa [writeCmd_of_full w hfull]
  · rw [ownerAct_supplyByte _ hr]
    rcases Nat.lt_or_ge s.din.length Config.params.dinDepth with hroom | hfull
    · rw [supplyByte_of_room b hroom]
      exact hs.withQueues hr s.draws hs.cmdBound (by rw [List.length_append]; exact hroom) hs.doutBound
    · rwa [supplyByte_of_full b hfull]
  · cases hd : s.dout with
    | nil => rwa [ownerAct_takeByte_of_nil _ hd]
    | cons y ys =>
      have hbound := hs.doutBound
      rw [hd, List.length_cons] at hbound
      rw [ownerAct_takeByte_of_cons _ hd]
      exact hs.withQueues hr s.draws hs.cmdBound hs.dinBound (Nat.le_of_succ_le hbound)

/-- A CSR read moves at most the draw counter, of which the invariant says nothing. -/
theorem readCsr_inv {s : State} (hs : s.Inv) (index : BitVec 6) :
    (ownerAct Config.params (.readCsr index) s).Inv := by
  rw [ownerAct_readCsr]
  by_cases hr : s.rst = true
  · rw [hs.inReset hr]
    exact reset_inv true _
  · exact hs.withQueues (Bool.eq_false_of_not_eq_true hr) _ hs.cmdBound hs.dinBound hs.doutBound

theorem ownerAct_inv {s : State} (hs : s.Inv) (a : HostAction) : (ownerAct Config.params a s).Inv := by
  cases hr : s.rst with
  | true =>
    obtain ⟨hwrite, hsupply, htake⟩ := ownerAct_queue_of_rst Config.params hs hr
    cases a with
    | writeCmd w => rwa [hwrite]
    | supplyByte b => rwa [hsupply]
    | takeByte => rwa [htake]
    | readCsr index => exact readCsr_inv hs index
    | assertRst => exact reset_inv true s.draws
    | releaseRst =>
      rw [ownerAct, if_pos hr]
      exact reset_inv false s.draws
  | false =>
    obtain ⟨hwrite, hsupply, htake⟩ := queueAct_inv hs hr
    cases a with
    | writeCmd w => exact hwrite w
    | supplyByte b => exact hsupply b
    | takeByte => exact htake
    | readCsr index => exact readCsr_inv hs index
    | assertRst => exact reset_inv true s.draws
    | releaseRst => rwa [ownerAct, if_neg (by rw [hr]; exact Bool.false_ne_true)]

/-- Settles O14: an act either writes within a queue's depth, moves the draw counter, or leaves the reset state. -/
theorem hostActKeepsTheInvariant : Obligations.HostActKeepsTheInvariant := by
  intro a s t hs h
  rw [hostAct, Host.Outcome.next.injEq] at h
  rw [← h]
  exact ownerAct_inv hs a

end Sys2Proof.Machine

/-! PROOF. Every step of the engine keeps the invariant: the words the decoder accepts spell well-formed commands, and
a well-formed command started from a sound state leaves a state that meets the invariant. -/

namespace Sys2Proof

theorem commandOf_wellFormed (op : BitVec 4) (m : BitVec 2) (len : BitVec 24) :
    (commandOf op m len.toNat).wellFormed = true := by
  have hlen : fitsLen len.toNat = true := decide_eq_true len.isLt
  unfold commandOf
  split <;> simp only [Instr.wellFormed, hlen]

/-- The decoder gives well-formed commands only (R76, R77). -/
theorem decode_wellFormed {w : Word} {i : Instr} (h : decode w = .command i) : i.wellFormed = true := by
  have hCF : ∀ op : BitVec 4, 0xC ≤ op.toNat → (Instr.reservedCF op 0).wellFormed = true := by decide
  unfold decode at h
  split_ifs at h with h0 hAB hC <;> cases h
  · rfl
  · simpa [Instr.wellFormed] using hAB
  · exact hCF _ hC
  · exact commandOf_wellFormed _ _ _

namespace Machine

theorem State.Sound.withCmd {s : State} (hs : s.Sound) {cmd : List Word}
    (h : cmd.length ≤ Config.params.cmdDepth) : State.Sound { s with cmd := cmd } :=
  ⟨hs.fsOk, hs.keyTail, hs.ivUnset, hs.noFault, h, hs.dinBound, hs.doutBound, hs.noReset⟩

/-- A command without a payload writes FS with the init state, if at all, so it keeps the FS invariant (R25). -/
theorem ImmediateEffect.status_inv {i : Instr} {s t : State} {code : ErrCode} (he : ImmediateEffect i s code t)
    (hs : s.Sound) : (status code t).Inv := by
  have hfs : t.fs.Ok := by
    rcases he.fsCase with h | ⟨h, -⟩
    · rw [h]
      exact hs.fsOk
    · rw [h]
      exact fun _ => rfl
  rw [he.keeps]
  exact State.Sound.inv_idle ⟨hfs, hs.keyTail, hs.ivUnset, hs.noFault, hs.cmdBound, hs.dinBound, hs.doutBound,
    hs.noReset⟩ rfl

theorem exec_inv {i : Instr} (hw : i.wellFormed = true) {s t : State} (hs : s.Sound) (h : exec i s = .next t) :
    t.Inv := by
  cases hp : takesPayload i with
  | true =>
    rw [exec_payload hp, Host.Outcome.next.injEq] at h
    rw [← h]
    exact advance_inv hs (start_sound hp hw s)
  | false =>
    obtain ⟨code, u, hexec, he⟩ := exec_immediate hp s
    rw [hexec, Host.Outcome.next.injEq] at h
    rw [← h]
    exact he.status_inv hs

theorem runWord_inv {w : Word} {s t : State} (hs : s.Sound) (h : runWord w s = .next t) : t.Inv := by
  rcases runWord_cases w s with ⟨i, hd, hrun⟩ | ⟨-, hrun⟩
  · rw [hrun] at h
    exact exec_inv (decode_wellFormed hd) hs h
  · rw [hrun, Host.Outcome.next.injEq] at h
    rw [← h, rejectReservedField, rejectCommand]
    exact advance_inv hs (reserved_sound w s)

/-- Settles O13, by what a step can be: the reset hold, a command that goes on, a wait, or a command word run. -/
theorem stepKeepsTheInvariant : Obligations.StepKeepsTheInvariant := by
  intro s t hs h
  rcases step_cases h with ⟨-, rfl⟩ | ⟨hr, -, p, hp, rfl⟩ | ⟨-, -, rfl⟩ | ⟨hidle, w, ws, hcmd, hrun⟩
  · exact hs
  · exact advance_inv (hs.sound hr) (hs.progressOk p hp).sound
  · exact hs
  · have hbound := hs.cmdBound
    rw [hcmd, List.length_cons] at hbound
    exact runWord_inv ((hs.sound hidle.1).withCmd (Nat.le_of_succ_le hbound)) hrun

end Machine
end Sys2Proof

/-! PROOF. Blocks as big-endian integers (R12). -/

namespace Sys2Proof.Machine

/-- The big-endian value of a list of bytes is R12's sum. -/
theorem beList_eq_sum (l : List Byte) : beList l =
    ((List.range l.length).map fun i => (l.getD i 0#8).toNat * 256 ^ (l.length - 1 - i)).sum := by
  induction l using List.reverseRecOn with
  | nil => rfl
  | append_singleton l b ih =>
    have hinit : (List.range l.length).map (fun i => ((l ++ [b]).getD i 0#8).toNat * 256 ^ (l.length + 1 - 1 - i)) =
        (List.range l.length).map fun i => 256 * ((l.getD i 0#8).toNat * 256 ^ (l.length - 1 - i)) := by
      apply List.map_congr_left
      intro i hi
      have hi : i < l.length := List.mem_range.mp hi
      have hexp : l.length + 1 - 1 - i = l.length - 1 - i + 1 := by omega
      rw [List.getD_append _ _ _ _ hi, hexp, pow_succ]
      ring
    have hlast : (l ++ [b]).getD l.length 0#8 = b := by simp [List.getD_eq_getElem?_getD]
    rw [beList_append_singleton, ih, List.length_append, List.length_singleton, List.range_succ, List.map_append,
      List.sum_append, hinit, List.sum_map_mul_left, List.map_singleton, List.sum_singleton, hlast]
    simp

theorem be_beBytes {v : Nat} (h : v < 2 ^ (8 * blockBytes)) : be (beBytes v) = v := by
  have hpow : 256 ^ blockBytes = 2 ^ (8 * blockBytes) := by decide
  rw [be_eq_beList, beBytes, arrayOfBytes_toList_of_length _ _ (by simp), beList_digits, hpow, Nat.mod_eq_of_lt h]

theorem beBytes_be (A : Block) : beBytes (be A) = A :=
  block_ext _ _ (beList_injective _ _ (by simp) (be_beBytes (be_lt A)))

/-- Settles O41: the sum by induction on the bytes, the inverse from the base-256 digits and the injectivity of `be`. -/
theorem blockIntegersAreBigEndian : Obligations.BlockIntegersAreBigEndian := by
  refine ⟨fun A => ?_, beBytes_be, fun v => be_beBytes⟩
  rw [be_eq_beList, beList_eq_sum, Vector.length_toList]

end Sys2Proof.Machine

/-! PROOF. A call served byte by byte from its command word on (R54, R64, R185). -/

namespace Sys2Proof.Machine

theorem callTask_of_ready {s : State} (h : s.Ready) (dir : Direction) :
    callTask dir s = .process dir (startWork s) [] := if_pos ((checkProcess_ok s).mpr h)

/-- A call of at least one byte that finds DIN empty and nothing to push waits for its payload (R55). -/
theorem exec_call_waits (dir : Direction) {n : Nat} (hn : n ≠ 0) {s : State} (hready : s.Ready) (hdin : s.din = [])
    (hdout : s.dout = []) :
    exec (callOf dir n) s =
      .next { s with progress := some ⟨encode (callOf dir n), n, .process dir (startWork s) []⟩ } := by
  have hfold : byteFold Config.params.E s.mode (keyInUse s) dir ((startWork s).read s.fs) (s.din.take n) =
      some ((startWork s).read s.fs, []) := by
    rw [hdin, List.take_nil, byteFold]
  have hroom : s.dout.length + ([] : List Byte).length + (s.din.take n).length ≤ Config.params.doutDepth := by
    simp [hdin, hdout]
  have hleft : n - s.din.length = n := by simp [hdin]
  rw [exec_callOf, processCommand_eq, callTask_of_ready hready, advance_process_room _ _ _ _ _ _ _ hfold hroom, hleft,
    if_neg hn]
  simp [hdin, hdout]

/-- A call of no bytes completes at once and changes nothing but STATUS.ERR (R118). -/
theorem exec_call_empty (dir : Direction) {s : State} (hidle : s.Idle) (hready : s.Ready) (hdout : s.dout = []) :
    exec (callOf dir 0) s = .next { s with fs := if s.cb then callStart s else s.fs, err := .ok } := by
  obtain ⟨-, -, hp⟩ := hidle
  have hcall := processCommand_supplied Config.params (encode (callOf dir 0)) dir 0 s hready (Nat.zero_le _)
    (by simp [hdout]) (S' := callStart s) (ys := []) (by rw [List.take_zero, byteFold])
  rw [exec_callOf, hcall, status, ← hp, List.drop_zero, List.append_nil]

/-- Settles O45: the empty call is done at once; any other waits, and is then served by `serve_call`. -/
theorem servedCallDeliversEveryByte : Obligations.ServedCallDeliversEveryByte := by
  intro dir xs s hidle hready hdin hdout
  cases xs with
  | nil => exact ⟨_, callStart s, [], exec_call_empty dir hidle hready hdout, rfl, rfl⟩
  | cons x xs =>
    obtain ⟨S', ys, hfold, -⟩ := byteFold_completes Config.E s.mode (keyInUse s) dir (callStart s) (x :: xs)
    obtain ⟨hr, hf, hp⟩ := hidle
    refine ⟨_, S', ys, exec_call_waits dir (Nat.succ_ne_zero _) hready hdin hdout, hfold, ?_⟩
    have hserve := serve_call dir (encode (callOf dir (x :: xs).length)) (List.cons_ne_nil x xs) (startWork s)
      { s with progress := some ⟨encode (callOf dir (x :: xs).length), (x :: xs).length, .process dir (startWork s) []⟩ }
      hr hf rfl hdin hdout ((startWork_read s).symm ▸ hfold)
    rw [startWork_fsAfter, ← hp] at hserve
    exact hserve

end Sys2Proof.Machine

/-! PROOF. What a CSR read answers: the fields of each word while BUSY = 0 (R36 to R43), and nothing of KEY. -/

namespace Sys2Proof.Machine

theorem csrRead_word (index : BitVec 6) (s : State) :
    (csrRead index s).1 = if s.busy then busyWord s index (Config.draw s.draws) else csrWord s index := by
  unfold csrRead
  cases s.busy <;> rfl

theorem csrRead_word_of_idle {s : State} (h : s.busy = false) (index : BitVec 6) :
    (csrRead index s).1 = csrWord s index := by
  rw [csrRead_word, h, if_neg Bool.false_ne_true]

/-- Settles O59: neither word of a read, drawn or not, looks at KEY. -/
theorem keyIsNotReadable : Obligations.KeyIsNotReadable := by
  intro index s key
  rw [csrRead_word, csrRead_word]
  rfl

/-- CTRL's fields side by side (R36). -/
theorem csrCtrl_toNat (s : State) : (csrCtrl s).toNat =
    s.mode.bits.toNat + 4 * (BitVec.ofBool s.cb).toNat + 8 * s.keyLen.bits.toNat +
      32 * (BitVec.ofBool s.ivv).toNat := by
  simp only [csrCtrl, append_toNat, BitVec.toNat_ofNat]
  omega

/-- STATUS's fields side by side (R37). -/
theorem csrStatus_toNat (s : State) : (csrStatus s).toNat =
    s.err.code.toNat + 16 * (BitVec.ofBool s.busy).toNat + 32 * (BitVec.ofBool s.fault).toNat := by
  simp only [csrStatus, append_toNat, BitVec.toNat_ofNat]
  omega

/-- CURSOR reads CUR (R38). -/
theorem csrCursor_toNat (s : State) : (csrCursor s).toNat = s.fs.cur.toNat := by
  simp only [csrCursor, append_toNat, BitVec.toNat_ofNat]
  omega

/-- A field of a word, by the word's number. -/
theorem extractLsb'_eq_iff {n start len : Nat} (w : BitVec n) (v : BitVec len) :
    w.extractLsb' start len = v ↔ w.toNat / 2 ^ start % 2 ^ len = v.toNat := by
  rw [← BitVec.toNat_inj, BitVec.extractLsb'_toNat, Nat.shiftRight_eq_div_pow]

theorem csrCtrl_fields (s : State) :
    (csrCtrl s).extractLsb' 0 2 = s.mode.bits ∧ (csrCtrl s).extractLsb' 2 1 = BitVec.ofBool s.cb ∧
      (csrCtrl s).extractLsb' 3 2 = s.keyLen.bits ∧ (csrCtrl s).extractLsb' 5 1 = BitVec.ofBool s.ivv ∧
      (csrCtrl s).extractLsb' 6 26 = 0#26 := by
  have hmode := s.mode.bits.isLt
  have hcb := (BitVec.ofBool s.cb).isLt
  have hlen := s.keyLen.bits.isLt
  have hivv := (BitVec.ofBool s.ivv).isLt
  simp only [extractLsb'_eq_iff, csrCtrl_toNat, BitVec.toNat_ofNat]
  omega

theorem csrStatus_fields (s : State) :
    (csrStatus s).extractLsb' 0 4 = s.err.code ∧ (csrStatus s).extractLsb' 4 1 = BitVec.ofBool s.busy ∧
      (csrStatus s).extractLsb' 5 1 = BitVec.ofBool s.fault ∧ (csrStatus s).extractLsb' 6 26 = 0#26 := by
  have herr := s.err.code.isLt
  have hbusy := (BitVec.ofBool s.busy).isLt
  have hfault := (BitVec.ofBool s.fault).isLt
  simp only [extractLsb'_eq_iff, csrStatus_toNat, BitVec.toNat_ofNat]
  omega

theorem csrCursor_fields (s : State) :
    (csrCursor s).extractLsb' 0 4 = s.fs.cur ∧ (csrCursor s).extractLsb' 4 28 = 0#28 := by
  have hcur := s.fs.cur.isLt
  simp only [extractLsb'_eq_iff, csrCursor_toNat, BitVec.toNat_ofNat]
  omega

theorem csrWord_unmapped (s : State) {index : BitVec 6} (h : 16 ≤ index.toNat) : csrWord s index = 0#32 := by
  unfold csrWord
  repeat rw [if_neg (by omega)]

/-- The number of key bytes that each value of KEYLEN puts in use (R28). -/
theorem KeyLen.bytes_of_bits (k : KeyLen) :
    (k.bits = 1#2 → k.bytes = 16) ∧ (k.bits = 2#2 → k.bytes = 24) ∧ (k.bits = 3#2 → k.bytes = 32) := by
  cases k <;> decide

theorem ErrCode.code_le (c : ErrCode) : c.code.toNat ≤ 8 := by
  cases c <;> decide

/-- Settles O55: the values by their definitions, the fields from each CSR word's number. -/
theorem csrMapWhenNotBusy : Obligations.CsrMapWhenNotBusy := by
  refine ⟨⟨rfl, rfl, rfl, rfl⟩, ⟨⟨rfl, rfl, rfl, rfl⟩, fun s h => ?_, fun s h => ?_, fun s h => ?_⟩,
    ⟨⟨rfl, rfl, rfl, rfl, rfl, rfl, rfl, rfl, rfl⟩, ErrCode.code_le⟩, fun s hb => ?_⟩
  · rw [keyInUse, s.keyLen.bytes_of_bits.1 h]
  · rw [keyInUse, s.keyLen.bytes_of_bits.2.1 h]
  · rw [keyInUse, s.keyLen.bytes_of_bits.2.2 h, List.take_of_length_le (by simp)]
  · have hstatus := csrStatus_fields s
    rw [hb] at hstatus
    simp only [csrRead_word_of_idle hb]
    exact ⟨csrCtrl_fields s, hstatus, csrCursor_fields s, rfl, fun index => csrWord_unmapped s⟩

end Sys2Proof.Machine

/-! PROOF. Hardware reset (R44, R170, R171), and the invariant in every reached state (R25). -/

namespace Sys2Proof.Machine

/-- Settles O9: each element by the definition of the reset state. -/
theorem resetValues : Obligations.ResetValues :=
  ⟨rfl, rfl, rfl, rfl, Vector.toList_replicate, rfl, rfl, rfl, rfl, rfl, rfl, rfl, rfl, rfl, rfl, rfl, rfl⟩

/-- While RST is asserted the engine's reset state stays as it is under every act of the host but the release (R170). -/
theorem ownerAct_reset_held (P : Params) (draws : Nat) {a : HostAction} (h : a ≠ .releaseRst) :
    ownerAct P a { State.reset with rst := true, draws := draws } =
      { State.reset with rst := true, draws := draws } := by
  obtain ⟨hwrite, hsupply, htake⟩ := ownerAct_queue_of_rst P (reset_inv true draws) rfl
  cases a with
  | writeCmd w => exact hwrite w
  | supplyByte b => exact hsupply b
  | takeByte => exact htake
  | readCsr index => exact ownerAct_readCsr P index _
  | assertRst => rfl
  | releaseRst => exact absurd rfl h

/-- An idle engine runs the word at the head of CMD (R63). -/
theorem step_idle_cons {s : State} (h : s.Idle) {w : Word} {ws : List Word} (hc : s.cmd = w :: ws) :
    step s = runWord w { s with cmd := ws } := by
  obtain ⟨hr, hf, hp⟩ := h
  simp [step, hr, hf, hp, takeWord, hc]

/-- An idle engine with an empty CMD waits for a command word (R170). -/
theorem step_idle_nil {s : State} (h : s.Idle) (hc : s.cmd = []) : step s = .next s := by
  obtain ⟨hr, hf, hp⟩ := h
  simp [step, hr, hf, hp, takeWord, hc]

/-- Settles O11: the reset state is held while RST is asserted, and is an idle engine with an empty CMD after release. -/
theorem hardwareResetFromAnyState : Obligations.HardwareResetFromAnyState := by
  intro s
  have hidle : State.Idle { State.reset with draws := s.draws } := ⟨rfl, rfl, rfl⟩
  refine ⟨rfl, rfl, fun a ha => congrArg _ (ownerAct_reset_held _ s.draws ha), rfl, step_idle_nil hidle rfl,
    fun w => ⟨{ State.reset with draws := s.draws, cmd := [w] }, ?_, step_idle_cons ⟨rfl, rfl, rfl⟩ rfl⟩⟩
  have hroom : ({ State.reset with draws := s.draws } : State).cmd.length < Config.params.cmdDepth :=
    Nat.succ_pos _
  rw [hostAct, ownerAct_writeCmd _ rfl, writeCmd_of_room w hroom]
  rfl

/-- Settles O12: the reset state with RST released and no CSR read drawn yet. -/
theorem resetMeetsTheInvariant : Obligations.ResetMeetsTheInvariant := reset_inv false 0

theorem Reachable.inv {s : State} (h : Reachable s) : s.Inv := by
  induction h with
  | reset => exact resetMeetsTheInvariant
  | step _ hstep ih => exact stepKeepsTheInvariant _ _ ih hstep
  | host _ hact ih => exact hostActKeepsTheInvariant _ _ _ ih hact

/-- Settles O39: the FS invariant is a clause of the state's invariant, and a byte step gives it from any state. -/
theorem feedbackStateInvariant : Obligations.FeedbackStateInvariant := by
  refine ⟨fun s h => ⟨h.inv.fsOk, cur_lt s.fs⟩, fun _ => ⟨fun _ => rfl, fun _ => rfl⟩, fun E mode key dir S x => ?_⟩
  exact ⟨_, _, byteStep_eq E mode key dir S x, finishByte_ok _ _, cur_lt _⟩

end Sys2Proof.Machine

/-! PROOF. A run of bytes inside one keystream block (R103, R109). -/

namespace Sys2Proof.Machine

/-- A run leaves the bytes of the block behind it as they were (R104). -/
theorem segmentKept_unused (mode : Mode) (dir : Direction) (K : Block) (c : Nat) {xs ys : List Byte}
    (hys : ys.length = xs.length) (hfit : c + xs.length ≤ blockBytes) :
    (segmentKept mode dir K c xs ys).toList.drop (c + xs.length) = K.toList.drop (c + xs.length) := by
  cases mode with
  | cfb =>
    have hz : (cipherBytes dir xs ys).length = xs.length := by
      cases dir with
      | enc => exact hys
      | dec => rfl
    have hfront : (K.toList.take c ++ cipherBytes dir xs ys).length = c + xs.length := by
      rw [List.length_append, hz, List.length_take, Vector.length_toList]
      omega
    rw [segmentKept_cfb, blockOfBytes, arrayOfBytes_toList_of_length, ← hfront, List.drop_left]
    rw [List.length_append, hfront, List.length_drop, Vector.length_toList]
    omega
  | ctr => rfl
  | ofb => rfl
  | blk => rfl

theorem segmentOut_length (K : Block) {c : Nat} {xs : List Byte} (h : c + xs.length ≤ blockBytes) :
    (segmentOut K c xs).length = xs.length := by
  rw [segmentOut, List.length_zipWith, List.length_drop, Vector.length_toList]
  omega

/-- Settles O38: the bytes are one run inside the block E(key(), REG), too short to complete it. -/
theorem registerHeldInsideABlock : Obligations.RegisterHeldInsideABlock := by
  intro E mode key dir S xs hcur hpos hlt
  have hc : S.cur.toNat = 0 := by rw [hcur]; rfl
  have hK : segmentBlock E key S = E key S.reg := if_pos hcur
  have hfit : 0 + xs.length ≤ blockBytes := by omega
  have hfold := byteFold_segment E mode key dir S xs (List.ne_nil_of_length_pos hpos) (by rw [hc]; exact hfit)
  rw [hK, hc, segmentState, if_neg (by omega), hc] at hfold
  refine ⟨_, _, hfold, rfl, ?_, ?_⟩
  · show (BitVec.ofNat 4 (0 + xs.length)).toNat = xs.length
    rw [Nat.zero_add, BitVec.toNat_ofNat]
    exact Nat.mod_eq_of_lt hlt
  · simpa using segmentKept_unused mode dir (E key S.reg) 0 (segmentOut_length (E key S.reg) hfit) hfit

end Sys2Proof.Machine

/-! PROOF. A rejected command and the payload it drains (R55, R57, R152). -/

namespace Sys2Proof.Machine

/-- A rejected command with its payload there pops it and reports its code (R112, R152). -/
theorem advance_drain_enough (P : Params) (w : Word) {n : Nat} (code : ErrCode) {s : State}
    (h : n ≤ s.din.length) :
    advance P ⟨w, n, .drain code⟩ s = { s with din := s.din.drop n, err := code, progress := none } := by
  rw [advance_drain, if_pos (Nat.sub_eq_zero_of_le h)]
  rfl

/-- A rejected command with too few bytes pops them all and waits for the rest (R55, R57). -/
theorem advance_drain_short (P : Params) (w : Word) {n : Nat} (code : ErrCode) {s : State}
    (h : s.din.length < n) :
    advance P ⟨w, n, .drain code⟩ s =
      { s with din := [], progress := some ⟨w, n - s.din.length, .drain code⟩ } := by
  rw [advance_drain, if_neg (Nat.sub_ne_zero_of_lt h), popPresent, List.drop_eq_nil_of_le h.le]

/-- A command that its checks reject, with its payload there: it pops that payload and reports its code (R57, R152). -/
theorem exec_rejected_enough {i : Instr} (h : takesPayload i = true) {s : State} {code : ErrCode}
    (ht : taskOf i s = .drain code) (hdin : i.payloadBytes ≤ s.din.length) :
    exec i s = .next { s with din := s.din.drop i.payloadBytes, err := code, progress := none } := by
  rw [exec_payload h, ht, advance_drain_enough _ _ _ hdin]

theorem runWord_reservedField {w : Word} (h : decode w = .reservedField w) (s : State) :
    runWord w s = .next (advance Config.params
      ⟨w, if dataBearing (opField w) then (lenField w).toNat else 0, .drain .reservedField⟩ s) := by
  simp only [runWord, h, rejectReservedField, rejectCommand]

/-- Settles O7: a RESERVED_FIELD word starts a rejected command, and a rejected command drains what is there. -/
theorem reservedFieldWordIsRejected : Obligations.ReservedFieldWordIsRejected := by
  refine ⟨fun s w ws n hidle hcmd hd hn => ?_, fun s w n code hr hf hp => ?_⟩
  · obtain ⟨-, -, hp⟩ := id hidle
    rw [step_idle_cons hidle hcmd, runWord_reservedField hd, ← hn]
    refine ⟨fun henough => ?_, fun hshort => congrArg _ (advance_drain_short _ w _ hshort)⟩
    rw [advance_drain_enough (s := { s with cmd := ws }) _ w _ henough, ← hp]
  · rw [step_busy hr hf hp]
    exact ⟨fun henough => congrArg _ (advance_drain_enough _ w code henough),
      fun hshort => congrArg _ (advance_drain_short _ w code hshort)⟩

end Sys2Proof.Machine

/-! PROOF. Which command writes which part of the configuration (R26 to R29). -/

namespace Sys2Proof.Machine

theorem loadKey_of_key_changed {P : Params} {p : Progress} {s : State}
    (h : (advance P p s).key ≠ s.key ∨ (advance P p s).keyLen ≠ s.keyLen) : ∃ got, p.task = .loadKey got := by
  by_contra hk
  obtain ⟨hkey, hlen⟩ := advance_key P p s fun got hgot => hk ⟨got, hgot⟩
  exact h.elim (absurd hkey) (absurd hlen)

theorem loadIv_of_iv_changed {P : Params} {p : Progress} {s : State}
    (h : (advance P p s).iv ≠ s.iv ∨ (advance P p s).ivv ≠ s.ivv) : ∃ got, p.task = .loadIv got := by
  by_contra hi
  obtain ⟨hiv, hivv⟩ := advance_iv P p s fun got hgot => hi ⟨got, hgot⟩
  exact h.elim (absurd hiv) (absurd hivv)

/-- Only SETKEY starts as a load of KEY. -/
theorem setkey_of_loadKey {i : Instr} (h : takesPayload i = true) {s : State} {got : List Byte}
    (ht : taskOf i s = .loadKey got) : ∃ n, i = .setkey n := by
  rcases taskOf_cases h s with ⟨_, _, -, -, h'⟩ | ⟨n, hi, -, -⟩ | ⟨-, h'⟩ | ⟨_, -, h'⟩
  · cases h'.symm.trans ht
  · exact ⟨n, hi⟩
  · cases h'.symm.trans ht
  · cases h'.symm.trans ht

/-- Only SETIV starts as a load of IV. -/
theorem setiv_of_loadIv {i : Instr} (h : takesPayload i = true) {s : State} {got : List Byte}
    (ht : taskOf i s = .loadIv got) : ∃ n, i = .setiv n := by
  rcases taskOf_cases h s with ⟨_, _, -, -, h'⟩ | ⟨_, -, -, h'⟩ | ⟨hi, -⟩ | ⟨_, -, h'⟩
  · cases h'.symm.trans ht
  · cases h'.symm.trans ht
  · exact ⟨_, hi⟩
  · cases h'.symm.trans ht

/-- A step that gives a next state while a command is in progress takes it on, unless RST holds the engine. -/
theorem step_progress_cases {s t : State} {p : Progress} (hp : s.progress = some p) (h : step s = .next t) :
    (s.rst = true ∧ t = s) ∨ t = advance Config.params p s := by
  rcases step_cases h with hhold | ⟨-, -, q, hq, ht⟩ | ⟨⟨-, -, hnone⟩, -⟩ | ⟨⟨-, -, hnone⟩, -⟩
  · exact .inl hhold
  · rw [hp, Option.some.injEq] at hq
    exact .inr (hq ▸ ht)
  · cases hp.symm.trans hnone
  · cases hp.symm.trans hnone

/-- Settles O20: a command with a payload writes what its task writes, any other its one setting. -/
theorem onlyItsCommandWritesEachSetting : Obligations.OnlyItsCommandWritesEachSetting := by
  refine ⟨fun i s t h => ?_, fun s t p hp h => ?_⟩
  · cases htp : takesPayload i with
    | true =>
      rw [exec_payload htp, Host.Outcome.next.injEq] at h
      subst h
      obtain ⟨hmode, hcb, hfault, hcmd, hrst, hdraws⟩ :=
        advance_keeps Config.params ⟨encode i, i.payloadBytes, taskOf i s⟩ s
      refine ⟨absurd hmode, absurd hcb, fun hkey => ?_, fun hiv => ?_, hcmd, hrst, hfault, hdraws⟩
      · obtain ⟨got, hgot⟩ := loadKey_of_key_changed hkey
        exact setkey_of_loadKey htp hgot
      · obtain ⟨got, hgot⟩ := loadIv_of_iv_changed hiv
        exact setiv_of_loadIv htp hgot
    | false =>
      obtain ⟨code, u, hexec, he⟩ := exec_immediate htp s
      rw [hexec, Host.Outcome.next.injEq] at h
      subst h
      refine ⟨he.mode.resolve_left, he.cbCase.resolve_left, ?_⟩
      rw [he.keeps]
      simp
  · rcases step_progress_cases hp h with ⟨-, rfl⟩ | rfl
    · simp
    · obtain ⟨hmode, hcb, hfault, hcmd, hrst, hdraws⟩ := advance_keeps Config.params p s
      exact ⟨hmode, hcb, loadKey_of_key_changed, loadIv_of_iv_changed, hcmd, hrst, hfault, hdraws⟩

end Sys2Proof.Machine

/-! PROOF. SETKEY and SETIV with their payload on DIN (R131, R132). -/

namespace Sys2Proof.Machine

theorem exec_setkey_legal {n : Nat} (h : n ∈ keyLengths) {s : State} (hdin : n ≤ s.din.length) :
    exec (.setkey n) s = .next { s with
      din := s.din.drop n
      key := keyOfBytes (s.din.take n)
      keyLen := keyLenOf n
      fs := initFS s.iv
      err := .ok
      progress := none } := by
  have ht : taskOf (.setkey n) s = .loadKey [] := if_pos (checkKeyLength_ok.mpr h)
  have hlen : (s.din.take n).length = n := List.length_take_of_le hdin
  rw [exec_payload rfl, ht, Instr.payloadBytes, advance_loadKey, if_pos (Nat.sub_eq_zero_of_le hdin)]
  simp only [status, fsReset, writeKey, popPresent, List.nil_append, hlen]

theorem exec_setkey_illegal {n : Nat} (h : n ∉ keyLengths) {s : State} (hdin : n ≤ s.din.length) :
    exec (.setkey n) s = .next { s with din := s.din.drop n, err := .keyLength, progress := none } := by
  have ht : taskOf (.setkey n) s = .drain .keyLength := by
    rw [taskOf, checkKeyLength, if_neg h]
    rfl
  exact exec_rejected_enough rfl ht hdin

theorem exec_setiv_legal {n : Nat} (h : n = blockBytes) {s : State} (hdin : n ≤ s.din.length) :
    exec (.setiv n) s = .next { s with
      din := s.din.drop n
      iv := blockOfBytes (s.din.take n)
      ivv := true
      fs := initFS (blockOfBytes (s.din.take n))
      err := .ok
      progress := none } := by
  have ht : taskOf (.setiv n) s = .loadIv [] := if_pos (checkIvLength_ok.mpr h)
  rw [exec_payload rfl, ht, Instr.payloadBytes, advance_loadIv, if_pos (Nat.sub_eq_zero_of_le hdin)]
  rfl

theorem exec_setiv_illegal {n : Nat} (h : n ≠ blockBytes) {s : State} (hdin : n ≤ s.din.length) :
    exec (.setiv n) s = .next { s with din := s.din.drop n, err := .ivLength, progress := none } := by
  have ht : taskOf (.setiv n) s = .drain .ivLength := by
    rw [taskOf, checkIvLength, if_neg h]
    rfl
  exact exec_rejected_enough rfl ht hdin

theorem mem_keyLengths {n : Nat} : n ∈ keyLengths ↔ n = 16 ∨ n = 24 ∨ n = 32 := by
  simp [keyLengths]

theorem keyLenOf_bytes {n : Nat} (h : n ∈ keyLengths) : (keyLenOf n).bytes = n := by
  revert n
  decide

/-- KEY after a load: the bytes, and zeros behind them (R131). -/
theorem keyOfBytes_toList {d : List Byte} (h : d.length ≤ 32) :
    (keyOfBytes d).toList = d ++ List.replicate (32 - d.length) 0#8 := by
  rw [keyOfBytes, arrayOfBytes_toList, List.take_append, List.take_of_length_le h, List.take_replicate,
    Nat.min_eq_left (Nat.sub_le _ _)]

/-- Settles O46: the legal lengths are those of `keyLengths`. -/
theorem setkeyEffect : Obligations.SetkeyEffect := by
  intro n s hidle hdin
  obtain ⟨-, -, hp⟩ := hidle
  rw [← mem_keyLengths]
  have hlen : (s.din.take n).length = n := List.length_take_of_le hdin
  refine ⟨fun hn => ⟨keyOfBytes (s.din.take n), keyLenOf n, ?_, keyLenOf_bytes hn, ?_⟩, fun hn => ?_⟩
  · have hle : n ≤ 32 := by
      rcases mem_keyLengths.mp hn with rfl | rfl | rfl <;> decide
    rw [keyOfBytes_toList (hlen.trans_le hle), hlen]
  · rw [exec_setkey_legal hn hdin, ← hp, initFS]
  · rw [exec_setkey_illegal hn hdin, ← hp]

/-- Settles O47: the bytes of an IV of legal length are the payload. -/
theorem setivEffect : Obligations.SetivEffect := by
  intro n s hidle hdin
  obtain ⟨-, -, hp⟩ := hidle
  refine ⟨fun hn => ⟨blockOfBytes (s.din.take n), ?_, ?_⟩, fun hn => ?_⟩
  · rw [← hn]
    exact arrayOfBytes_toList_of_length _ _ ((List.length_take_of_le hdin).trans hn)
  · rw [exec_setiv_legal hn hdin, ← hp, initFS]
  · rw [exec_setiv_illegal hn hdin, ← hp]

end Sys2Proof.Machine

/-! PROOF. A call and a DOUT without room for its output bytes (R54, R56, R64). -/

namespace Sys2Proof.Machine

/-- DOUT within its depth takes all of the bytes exactly when none stays pending. -/
theorem drop_room_eq_nil_iff {s : State} (hd : s.dout.length ≤ Config.params.doutDepth) (bytes : List Byte) :
    bytes.drop (Config.params.doutDepth - s.dout.length) = [] ↔ s.RoomFor bytes.length := by
  rw [List.drop_eq_nil_iff]
  omega

/-- What a call that goes on does, with DOUT within its depth, is what the statements say of it: the loop of Process
(`pump_spec`), and its end once nothing is left to take or push (R112). -/
theorem advance_callGoesOn {s : State} {p : Progress} {dir : Direction} {work : Work} {pending : List Byte}
    (ht : p.task = .process dir work pending) (hd : s.dout.length ≤ Config.params.doutDepth) :
    CallGoesOn s p dir work pending (advance Config.params p s) := by
  obtain ⟨S', more, hfold, hle, hstop, hpump⟩ := pump_spec Config.params s.mode (keyInUse s) dir s.din p.left
    (work.read s.fs) pending s.dout
  have hend : p.left - more.length = 0 ↔ more.length = p.left := by omega
  refine ⟨S', more, hfold, hle, hstop, ?_⟩
  simp only [advance, ht, advanceProcess_eq, hpump, drop_room_eq_nil_iff hd, hend]
  split <;> rfl

/-- A loop that has no byte to take, none on DIN or no room to run ahead only pushes. -/
theorem pump_of_stalled {P : Params} (mode : Mode) (key : List Byte) (dir : Direction) {din : List Byte} {left : Nat}
    (S : FeedbackState) {pending dout : List Byte}
    (h : left = 0 ∨ din = [] ∨ mayPop P (flush P.doutDepth pending dout).1 = false) :
    pump P mode key dir din left S pending dout =
      ⟨din, left, S, (flush P.doutDepth pending dout).1, (flush P.doutDepth pending dout).2, false⟩ := by
  cases left with
  | zero => exact pump_zero P mode key dir din S pending dout
  | succ left =>
    cases din with
    | nil => exact pump_nil P mode key dir (left + 1) S pending dout
    | cons x xs =>
      rcases h with h | h | h
      · cases h
      · cases h
      · exact pump_cons_wait mode key dir x xs left S pending dout h

/-- With DOUT full and an output byte pending, a call only runs ahead: it pops bytes and computes theirs (R56, R64). -/
theorem CallGoesOn.of_full {s t : State} {p : Progress} {dir : Direction} {work : Work} {pending : List Byte}
    (h : CallGoesOn s p dir work pending t) (hne : pending ≠ []) (hfull : s.dout.length = Config.params.doutDepth) :
    ∃ S' more, byteFold Config.E s.mode (keyInUse s) dir (work.read s.fs) (s.din.take more.length) = some (S', more) ∧
      more.length ≤ p.left ∧
      t = { s with
        din := s.din.drop more.length
        fs := work.fsAfter s.fs S'
        progress := some ⟨p.word, p.left - more.length, .process dir (work.after S') (pending ++ more)⟩ } := by
  obtain ⟨S', more, hfold, hle, -, rfl⟩ := h
  have hpos := List.length_pos_iff.mpr hne
  have hroom : ¬(more.length = p.left ∧ s.RoomFor (pending ++ more).length) := by
    rw [List.length_append]
    omega
  refine ⟨S', more, hfold, hle, ?_⟩
  simp only [if_neg hroom, hfull, Nat.sub_self, List.drop_zero, List.take_zero, List.append_nil]

/-- A call that can neither push nor pop changes nothing (R56). -/
theorem advance_of_stalled {s : State} {p : Progress} {dir : Direction} {work : Work} {pending : List Byte}
    (hp : s.progress = some p) (ht : p.task = .process dir work pending) (hne : pending ≠ [])
    (hfull : s.dout.length = Config.params.doutDepth)
    (h : p.left = 0 ∨ s.din = [] ∨ mayPop Config.params pending = false) : advance Config.params p s = s := by
  obtain ⟨w, n, task⟩ := p
  subst ht
  have hflush := flush_of_full Config.params.doutDepth pending s.dout hfull.ge
  have hpump := pump_of_stalled (P := Config.params) s.mode (keyInUse s) dir (work.read s.fs) (by rwa [hflush])
  rw [hflush] at hpump
  simp only [advance, advanceProcess_eq, hpump, hne, and_false, if_false, Work.fsAfter_read, Work.after_read, ← hp]

/-- A host that takes bytes gets the oldest ones in order (R54). -/
theorem takeBytes_append (taken rest : List Byte) {s : State} (h : s.dout = taken ++ rest) :
    takeBytes taken.length s = some (taken, { s with dout := rest }) := by
  induction taken generalizing s with
  | nil =>
    rw [List.nil_append] at h
    rw [← h]
    rfl
  | cons y ys ih =>
    rw [List.cons_append] at h
    rw [List.length_cons, takeBytes, takeByte_of_cons h]
    simp only [ih (s := { s with dout := ys ++ rest }) rfl]

/-- Settles O43: what `advance` does with a call, before and after the host takes bytes, and when the call starts. -/
theorem fullOutputQueueWaits : Obligations.FullOutputQueueWaits := by
  refine ⟨fun s p dir work y ys hr hf hp ht hfull => ?_, fun s p dir work pending taken rest hr hf hp ht hd hfull => ?_,
    fun s dir n hidle hready hd => ?_⟩
  · have hne : y :: ys ≠ [] := List.cons_ne_nil y ys
    rw [step_busy hr hf hp]
    refine ⟨?_, fun hstall => congrArg _ (advance_of_stalled hp ht hne hfull hstall)⟩
    obtain ⟨S', more, hfold, hle, heq⟩ := (advance_callGoesOn ht hfull.le).of_full hne hfull
    exact ⟨S', more, hfold, hle, congrArg _ heq⟩
  · have hrest : rest.length ≤ Config.params.doutDepth := by
      rw [hd, List.length_append] at hfull
      omega
    exact ⟨_, takeBytes_append taken rest hd, step_busy hr hf hp, advance_callGoesOn ht hrest⟩
  · refine ⟨_, exec_callOf dir n s, ?_⟩
    rw [processCommand_eq, callTask_of_ready hready]
    exact advance_callGoesOn rfl hd

end Sys2Proof.Machine

/-! PROOF. A command in progress and the part of its payload that is on DIN: it waits for the first byte, takes a part
of its payload and waits on, or completes (R53, R55, R57, R61). -/

namespace Sys2Proof.Machine

/-- What a command with a payload starts as: its checks made, its whole payload to take. -/
def starts (i : Instr) (s : State) : Progress := ⟨encode i, i.payloadBytes, taskOf i s⟩

/-! ## The payload is there -/

/-- A command whose payload is on DIN completes, a call if DOUT has room for every output byte (R57, R112). -/
theorem advance_completes {p : Progress} {s : State} (h : p.left ≤ s.din.length)
    (hroom : ∀ dir work pending, p.task = .process dir work pending → s.RoomFor (pending.length + p.left)) :
    (advance Config.params p s).progress = none ∧ (advance Config.params p s).din = s.din.drop p.left := by
  obtain ⟨w, n, task⟩ := p
  have hdone : n - s.din.length = 0 := Nat.sub_eq_zero_of_le h
  cases task with
  | process dir work pending =>
    obtain ⟨S', ys, hfold, -⟩ :=
      byteFold_completes Config.params.E s.mode (keyInUse s) dir (work.read s.fs) (s.din.take n)
    have hfit : s.dout.length + pending.length + (s.din.take n).length ≤ Config.params.doutDepth := by
      rw [List.length_take_of_le h, Nat.add_assoc]
      exact hroom dir work pending rfl
    rw [advance_process_room _ _ _ _ _ _ _ hfold hfit, if_pos hdone]
    exact ⟨rfl, rfl⟩
  | loadKey got =>
    rw [advance_loadKey, if_pos hdone]
    exact ⟨rfl, rfl⟩
  | loadIv got =>
    rw [advance_loadIv, if_pos hdone]
    exact ⟨rfl, rfl⟩
  | drain code =>
    rw [advance_drain_enough _ _ _ h]
    exact ⟨rfl, rfl⟩

/-- Only an accepted call starts as a call, and with nothing pending. -/
theorem call_of_process {i : Instr} (h : takesPayload i = true) {s : State} {dir : Direction} {work : Work}
    {pending : List Byte} (ht : taskOf i s = .process dir work pending) :
    (∃ n, i = callOf dir n) ∧ s.Ready ∧ pending = [] := by
  rcases taskOf_cases h s with ⟨_, n, hi, hready, h'⟩ | ⟨_, -, -, h'⟩ | ⟨-, h'⟩ | ⟨_, -, h'⟩
  · cases h'.symm.trans ht
    exact ⟨⟨n, hi⟩, hready, rfl⟩
  · cases h'.symm.trans ht
  · cases h'.symm.trans ht
  · cases h'.symm.trans ht

/-- With room in DOUT for an accepted call's output there is room for the task that a command starts with. -/
theorem room_of_taskOf {i : Instr} (h : takesPayload i = true) {s : State}
    (hroom : (∃ dir n, i = callOf dir n) → s.Ready → s.RoomFor i.payloadBytes) (dir : Direction) (work : Work)
    (pending : List Byte) (ht : taskOf i s = .process dir work pending) :
    s.RoomFor (pending.length + i.payloadBytes) := by
  obtain ⟨hcall, hready, rfl⟩ := call_of_process h ht
  rw [List.length_nil, Nat.zero_add]
  exact hroom ⟨dir, hcall⟩ hready

/-- A command that is no accepted call does not start as one. -/
theorem taskOf_ne_process {i : Instr} (h : takesPayload i = true) {s : State}
    (hcall : ∀ dir n, i = callOf dir n → ¬s.Ready) (dir : Direction) (work : Work) (pending : List Byte) :
    taskOf i s ≠ .process dir work pending := by
  intro ht
  obtain ⟨⟨n, hi⟩, hready, -⟩ := call_of_process h ht
  exact hcall dir n hi hready

/-- Settles O21: a command with a payload by what `advance` does with it, any other completes at once. -/
theorem everyCommandCompletes : Obligations.EveryCommandCompletes := by
  intro i s hidle hdin hroom
  obtain ⟨hr, hf, -⟩ := hidle
  cases htp : takesPayload i with
  | true =>
    obtain ⟨hnone, hpop⟩ := advance_completes (p := starts i s) hdin (room_of_taskOf htp hroom)
    obtain ⟨-, -, hfault, hcmd, hrst, -⟩ := advance_keeps Config.params (starts i s) s
    exact ⟨_, exec_payload htp s, ⟨hrst.trans hr, hfault.trans hf, hnone⟩, hpop, hcmd, fun hcall =>
      advance_dout _ _ _ (taskOf_ne_process htp fun dir n hi _ => hcall ⟨dir, n, hi⟩)⟩
  | false =>
    obtain ⟨code, t, hexec, he⟩ := exec_immediate htp s
    refine ⟨_, hexec, ?_⟩
    rw [he.keeps, payloadBytes_immediate htp]
    exact ⟨⟨hr, hf, rfl⟩, rfl, rfl, fun _ => rfl⟩

/-- An accepted call with its payload on DIN and room in DOUT: the fold of the byte steps over its payload, and nothing
else (R112). -/
theorem exec_call_supplied (dir : Direction) {n : Nat} {s : State} (hidle : s.Idle) (hready : s.Ready)
    (hdin : n ≤ s.din.length) (hroom : s.RoomFor n) :
    ∃ S' ys, byteFold Config.E s.mode (keyInUse s) dir (callStart s) (s.din.take n) = some (S', ys) ∧ ys.length = n ∧
      exec (callOf dir n) s = .next { s with
        din := s.din.drop n
        dout := s.dout ++ ys
        fs := if s.cb then S' else s.fs
        err := .ok } := by
  obtain ⟨S', ys, hfold, hlen⟩ := byteFold_completes Config.E s.mode (keyInUse s) dir (callStart s) (s.din.take n)
  obtain ⟨-, -, hp⟩ := hidle
  refine ⟨S', ys, hfold, hlen.trans (List.length_take_of_le hdin), ?_⟩
  rw [exec_callOf, processCommand_supplied _ _ dir n s hready hdin hroom hfold, status, ← hp]

/-- Settles O22, the direction ENC of `exec_call_supplied`. -/
theorem encryptResult : Obligations.EncryptResult := fun _ _ => exec_call_supplied .enc

/-- Settles O23, the direction DEC of `exec_call_supplied`. -/
theorem decryptResult : Obligations.DecryptResult := fun _ _ => exec_call_supplied .dec

/-! ## A part of the payload is there -/

@[simp] theorem Work.after_after (work : Work) (S S' : FeedbackState) : (work.after S).after S' = work.after S' := by
  cases work <;> rfl

/-- What the command `p` becomes when it takes the bytes on DIN of `s` and they do not end it: it waits in `t` as `q`
(R55). -/
structure TakesPart (s : State) (p : Progress) (t : State) (q : Progress) : Prop where
  rst     : t.rst = s.rst
  fault   : t.fault = s.fault
  waits   : t.progress = some q
  /-- It counts down by the bytes it takes. -/
  count   : q.left + s.din.length = p.left + t.din.length
  /-- Bytes behind those left on DIN have the effect they would have had behind those that were there. -/
  goesOn  : ∀ b, advance Config.params q { t with din := t.din ++ b } =
    advance Config.params p { s with din := s.din ++ b }
  /-- A command that is no call has changed DIN and its progress alone. -/
  frame   : (∀ dir work pending, p.task ≠ .process dir work pending) → t = { s with din := [], progress := some q }
  /-- With room in DOUT for the output bytes it takes every byte. -/
  emptied : (∀ dir work pending, p.task = .process dir work pending → s.RoomFor (pending.length + s.din.length)) →
    t.din = []

/-- SETKEY with too few bytes pops them all and waits for the rest (R55, R131). -/
theorem advance_loadKey_short (P : Params) (w : Word) {n : Nat} (got : List Byte) {s : State} (h : s.din.length < n) :
    advance P ⟨w, n, .loadKey got⟩ s =
      { s with din := [], progress := some ⟨w, n - s.din.length, .loadKey (got ++ s.din)⟩ } := by
  rw [advance_loadKey, if_neg (Nat.sub_ne_zero_of_lt h), popPresent, List.drop_eq_nil_of_le h.le,
    List.take_of_length_le h.le]

/-- SETIV with too few bytes pops them all and waits for the rest (R55, R132). -/
theorem advance_loadIv_short (P : Params) (w : Word) {n : Nat} (got : List Byte) {s : State} (h : s.din.length < n) :
    advance P ⟨w, n, .loadIv got⟩ s =
      { s with din := [], progress := some ⟨w, n - s.din.length, .loadIv (got ++ s.din)⟩ } := by
  rw [advance_loadIv, if_neg (Nat.sub_ne_zero_of_lt h), popPresent, List.drop_eq_nil_of_le h.le,
    List.take_of_length_le h.le]

/-- A command that is no call takes every byte of a part: what is to show is that what it then does with the rest is
what it does with both. -/
theorem TakesPart.of_emptied {s : State} {p q : Progress} (h : s.din.length < p.left)
    (hleft : q.left = p.left - s.din.length)
    (hrest : ∀ b, advance Config.params q { s with din := b, progress := some q } =
      advance Config.params p { s with din := s.din ++ b }) :
    TakesPart s p { s with din := [], progress := some q } q where
  rst := rfl
  fault := rfl
  waits := rfl
  count := by
    rw [hleft, List.length_nil]
    omega
  goesOn := hrest
  frame := fun _ => rfl
  emptied := fun _ => rfl

/-- The first `n` bytes of two parts, the first of them shorter than that. -/
theorem take_append_short {a : List Byte} {n : Nat} (h : a.length < n) (b : List Byte) :
    (a ++ b).take n = a ++ b.take (n - a.length) := by
  rw [List.take_append, List.take_of_length_le h.le]

theorem popPresent_append_short {s : State} {n : Nat} (h : s.din.length < n) (b : List Byte) :
    popPresent n { s with din := s.din ++ b } = popPresent (n - s.din.length) { s with din := b } := by
  rw [popPresent, popPresent, List.drop_append, List.drop_eq_nil_of_le h.le, List.nil_append]

/-- A command that is no call takes a part of its payload whole (R55, R57). -/
theorem takesPart_of_not_call {p : Progress} {s : State} (ht : ∀ dir work pending, p.task ≠ .process dir work pending)
    (h : s.din.length < p.left) : ∃ q, TakesPart s p (advance Config.params p s) q := by
  obtain ⟨w, n, task⟩ := p
  cases task with
  | process dir work pending => exact absurd rfl (ht dir work pending)
  | loadKey got =>
    rw [advance_loadKey_short _ w got h]
    refine ⟨_, .of_emptied h rfl fun b => ?_⟩
    rw [advance_loadKey, advance_loadKey, popPresent_append_short h, List.length_append, Nat.sub_add_eq,
      take_append_short h, List.append_assoc]
    rfl
  | loadIv got =>
    rw [advance_loadIv_short _ w got h]
    refine ⟨_, .of_emptied h rfl fun b => ?_⟩
    rw [advance_loadIv, advance_loadIv, popPresent_append_short h, List.length_append, Nat.sub_add_eq,
      take_append_short h, List.append_assoc]
    rfl
  | drain code =>
    rw [advance_drain_short _ w code h]
    refine ⟨_, .of_emptied h rfl fun b => ?_⟩
    rw [advance_drain, advance_drain, popPresent_append_short h, List.length_append, Nat.sub_add_eq]
    rfl

/-- The loop of Process with room in DOUT takes a part of its bytes whole. -/
theorem pump_din_of_room {P : Params} (mode : Mode) (key : List Byte) (dir : Direction) {din : List Byte} {left : Nat}
    (S : FeedbackState) {pending dout : List Byte} (h : din.length < left)
    (hroom : dout.length + (pending.length + din.length) ≤ P.doutDepth) :
    (pump P mode key dir din left S pending dout).din = [] := by
  have htake : din.take left = din := List.take_of_length_le h.le
  obtain ⟨S', ys, hfold, -⟩ := byteFold_completes P.E mode key dir S (din.take left)
  rw [pump_of_room mode key dir din left pending dout hfold (by rw [htake]; omega)]
  exact List.drop_eq_nil_of_le h.le

/-- A call takes a part of its payload: the loop of Process on the part, then on the rest (`pump_append`). -/
theorem takesPart_process {p : Progress} {s : State} {dir : Direction} {work : Work} {pending : List Byte}
    (ht : p.task = .process dir work pending) (h : s.din.length < p.left) :
    ∃ q, TakesPart s p (advance Config.params p s) q := by
  obtain ⟨w, n, task⟩ := p
  subst ht
  have happend := fun b =>
    (pump_append Config.params s.mode (keyInUse s) dir s.din b n (work.read s.fs) pending s.dout).1
  have hcount := (pump_append Config.params s.mode (keyInUse s) dir s.din [] n (work.read s.fs) pending s.dout).2
  have hempty := pump_din_of_room (P := Config.params) s.mode (keyInUse s) dir (work.read s.fs) (pending := pending)
    (dout := s.dout) h
  have hadv : advance Config.params ⟨w, n, .process dir work pending⟩ s = _ := advanceProcess_eq ..
  simp only at h hempty hadv
  generalize pump Config.params s.mode (keyInUse s) dir s.din n (work.read s.fs) pending s.dout = r at *
  have hmore : ¬(r.left = 0 ∧ r.pending = []) := fun hend => by omega
  rw [hadv, if_neg hmore]
  refine ⟨⟨w, r.left, .process dir (work.after r.fs) r.pending⟩, rfl, rfl, rfl, hcount, fun b => ?_,
    fun hcall => absurd rfl (hcall dir work pending), fun hroom => hempty (hroom dir work pending rfl)⟩
  simp only [advance, advanceProcess_eq, keyInUse, Work.read_after, Work.fsAfter_after, Work.after_after]
  simp only [keyInUse] at happend
  rw [happend b]
  rfl

/-- A part of its payload too short to end it leaves a command waiting for the rest (R55, R61). -/
theorem takesPart {p : Progress} {s : State} (h : s.din.length < p.left) :
    ∃ q, TakesPart s p (advance Config.params p s) q := by
  by_cases ht : ∃ dir work pending, p.task = .process dir work pending
  · obtain ⟨dir, work, pending, ht⟩ := ht
    exact takesPart_process ht h
  · exact takesPart_of_not_call (fun dir work pending h' => ht ⟨dir, work, pending, h'⟩) h

theorem takesPayload_of_pos {i : Instr} (h : 0 < i.payloadBytes) : takesPayload i = true := by
  cases htp : takesPayload i with
  | true => rfl
  | false =>
    rw [payloadBytes_immediate htp] at h
    cases h

/-- A command with a payload starts from the same record whatever DIN holds. -/
theorem exec_din {i : Instr} (h : takesPayload i = true) (s : State) (din : List Byte) :
    exec i { s with din := din } = .next (advance Config.params (starts i s) { s with din := din }) := by
  have htask : taskOf i { s with din := din } = taskOf i s := by cases i <;> rfl
  rw [exec_payload h, htask]
  rfl

/-- The step that finds further bytes behind those left on DIN. -/
theorem TakesPart.step_append {s t : State} {p q : Progress} (h : TakesPart s p t q) (hr : s.rst = false)
    (hf : s.fault = false) (b : List Byte) :
    step { t with din := t.din ++ b } = .next (advance Config.params p { s with din := s.din ++ b }) := by
  rw [← h.goesOn b]
  exact step_busy (s := { t with din := t.din ++ b }) (h.rst.trans hr) (h.fault.trans hf) h.waits

/-- A command with a payload that finds its first part on DIN, with room in DOUT if it is an accepted call: it takes the
part whole and waits for the rest (R55, R57). -/
theorem exec_first_part {i : Instr} {s : State} {a b : List Byte} (hpayload : takesPayload i = true)
    (hlen : i.payloadBytes = a.length + b.length) (hb : b ≠ [])
    (hroom : (∃ dir n, i = callOf dir n) → s.Ready → s.RoomFor i.payloadBytes) :
    ∃ t q, exec i { s with din := a } = .next t ∧ TakesPart { s with din := a } (starts i s) t q ∧ t.din = [] ∧
      q.left = b.length := by
  have hpos : 0 < b.length := List.length_pos_iff.mpr hb
  have hshort : a.length < (starts i s).left := by
    rw [starts, hlen]
    exact Nat.lt_add_of_pos_right hpos
  obtain ⟨q, hq⟩ := takesPart (s := { s with din := a }) hshort
  have hempty := hq.emptied fun dir work pending ht => by
    have hfit : s.dout.length + (pending.length + i.payloadBytes) ≤ Config.params.doutDepth :=
      room_of_taskOf hpayload hroom dir work pending ht
    show s.dout.length + (pending.length + a.length) ≤ Config.params.doutDepth
    omega
  have hcount : q.left + a.length = i.payloadBytes + _ := hq.count
  rw [hempty, List.length_nil] at hcount
  exact ⟨_, q, exec_din hpayload s a, hq, hempty, by omega⟩

/-- Settles O44: a command takes a part of its payload (`TakesPart`), and a command that starts is one that still needs
its whole payload. -/
theorem supplyTimingIsIrrelevant : Obligations.SupplyTimingIsIrrelevant := by
  refine ⟨fun i s a b hidle hlen hb hroom => ?_, fun s p a hr hf hp ha => ?_⟩
  · obtain ⟨hr, hf, -⟩ := hidle
    have hpos : 0 < b.length := List.length_pos_iff.mpr hb
    have hpayload : takesPayload i = true := takesPayload_of_pos (by omega)
    obtain ⟨t, q, hexec, hq, hempty, hleft⟩ := exec_first_part hpayload hlen hb hroom
    have hstep := hq.step_append hr hf b
    rw [hempty, List.nil_append] at hstep
    have hall : (starts i s).left ≤ (a ++ b).length := by rw [starts, hlen, List.length_append]
    refine ⟨t, _, hexec, by rw [State.busy, hq.waits, Option.isSome_some], ⟨q, hq.waits, hleft⟩, hempty,
      hq.rst.trans hr, hq.fault.trans hf, fun hcall => ?_, hstep, exec_din hpayload s (a ++ b),
      (advance_completes (s := { s with din := a ++ b }) hall (room_of_taskOf hpayload hroom)).1⟩
    rw [hq.waits]
    exact hq.frame (taskOf_ne_process hpayload hcall)
  · obtain ⟨q, hq⟩ := takesPart (s := { s with din := a }) ha
    have hstep : ∀ din, step { s with din := din } = .next (advance Config.params p { s with din := din }) :=
      fun din => step_busy (s := { s with din := din }) hr hf hp
    exact ⟨_, q, hstep a, hq.rst.trans hr, hq.fault.trans hf, hq.waits, hq.count,
      fun b => (hq.step_append hr hf b).trans (hstep (a ++ b)).symm, hq.frame, hq.emptied⟩

/-! ## No byte is there -/

/-- A command that needs a byte, finds none on DIN and has nothing that it can push changes nothing (R55). -/
theorem advance_underrun {s : State} {p : Progress} (hp : s.progress = some p) (hleft : 0 < p.left) (hdin : s.din = [])
    (hpush : ∀ dir work pending, p.task = .process dir work pending →
      pending = [] ∨ Config.params.doutDepth ≤ s.dout.length) : advance Config.params p s = s := by
  obtain ⟨w, n, task⟩ := p
  have hshort : s.din.length < n := by rwa [hdin]
  cases task with
  | process dir work pending =>
    have hflush : flush Config.params.doutDepth pending s.dout = (pending, s.dout) := by
      rcases hpush dir work pending rfl with rfl | hfull
      · rfl
      · exact flush_of_full _ _ _ hfull
    have hpump := pump_of_stalled (P := Config.params) s.mode (keyInUse s) dir (left := n) (work.read s.fs)
      (pending := pending) (dout := s.dout) (.inr (.inl hdin))
    rw [hflush] at hpump
    simp only [advance, advanceProcess_eq, hpump, Nat.ne_of_gt hleft, false_and, if_false, Work.fsAfter_read,
      Work.after_read, ← hp]
  | loadKey got =>
    rw [advance_loadKey_short _ w got hshort, hdin, List.append_nil, List.length_nil, Nat.sub_zero, ← hp, ← hdin]
  | loadIv got =>
    rw [advance_loadIv_short _ w got hshort, hdin, List.append_nil, List.length_nil, Nat.sub_zero, ← hp, ← hdin]
  | drain code =>
    rw [advance_drain_short _ w code hshort, hdin, List.length_nil, Nat.sub_zero, ← hp, ← hdin]

/-- Settles O42: the step takes the command on, which changes nothing. -/
theorem inputUnderrunWaits : Obligations.InputUnderrunWaits := by
  intro s p hr hf hp hleft hdin hpush
  rw [step_busy hr hf hp, advance_underrun hp hleft hdin hpush]

end Sys2Proof.Machine

/-! PROOF. The idle engine's step (R63, R170). -/

namespace Sys2Proof.Machine

/-- Settles O6: the idle engine runs the word at the head of CMD. -/
theorem stepRunsTheDecodedCommand : Obligations.StepRunsTheDecodedCommand := by
  intro s w ws i hidle hcmd hdecode
  simp only [step_idle_cons hidle hcmd, runWord, hdecode]

/-- Settles O8, which is `step_idle_nil`. -/
theorem idleEngineWaitsForACommandWord : Obligations.IdleEngineWaitsForACommandWord := fun _ => step_idle_nil

end Sys2Proof.Machine

/-! PROOF. CSR reads of blocks (R52), and reads while BUSY = 1 (R65, R180). -/

namespace Sys2Proof.Machine

/-- A block word's bytes side by side, byte 4k the most significant (R52). -/
theorem blockWord_toNat (A : Block) (k : Nat) : (blockWord A k).toNat =
    (A.toList.getD (4 * k) 0#8).toNat * 2 ^ 24 + (A.toList.getD (4 * k + 1) 0#8).toNat * 2 ^ 16 +
      (A.toList.getD (4 * k + 2) 0#8).toNat * 2 ^ 8 + (A.toList.getD (4 * k + 3) 0#8).toNat := by
  simp only [blockWord, append_toNat]
  omega

theorem blockWord_byte (A : Block) (k : Nat) {j : Nat} (hj : j < 4) :
    (blockWord A k).extractLsb' (24 - 8 * j) 8 = A.toList.getD (4 * k + j) 0#8 := by
  have h0 := (A.toList.getD (4 * k) 0#8).isLt
  have h1 := (A.toList.getD (4 * k + 1) 0#8).isLt
  have h2 := (A.toList.getD (4 * k + 2) 0#8).isLt
  have h3 := (A.toList.getD (4 * k + 3) 0#8).isLt
  rw [extractLsb'_eq_iff, blockWord_toNat]
  interval_cases j
  · rw [Nat.add_zero (4 * k)]
    omega
  all_goals omega

theorem beList_take_succ {l : List Byte} {n : Nat} (h : n < l.length) :
    beList (l.take (n + 1)) = 256 * beList (l.take n) + (l.getD n 0#8).toNat := by
  rw [List.take_succ_eq_append_getElem h, beList_append_singleton, List.getD_eq_getElem _ _ h]

/-- A block's first bytes, up to the end of word k, spell the word below those before it. -/
theorem beList_take_blockWord (A : Block) {k : Nat} (hk : k < 4) :
    beList (A.toList.take (4 * k + 4)) = 2 ^ 32 * beList (A.toList.take (4 * k)) + (blockWord A k).toNat := by
  have hlen : A.toList.length = 16 := Vector.length_toList
  rw [beList_take_succ (by omega), beList_take_succ (by omega), beList_take_succ (by omega),
    beList_take_succ (by omega), blockWord_toNat]
  omega

/-- The four words of a block, in address order, spell its integer from the top (R12, R52). -/
theorem be_eq_blockWords (A : Block) : be A = (blockWord A 0).toNat * 2 ^ 96 + (blockWord A 1).toNat * 2 ^ 64 +
    (blockWord A 2).toNat * 2 ^ 32 + (blockWord A 3).toNat := by
  have hall : A.toList.take 16 = A.toList := List.take_of_length_le (by simp)
  have hnone : beList (A.toList.take 0) = 0 := rfl
  have h0 : beList (A.toList.take 4) = 2 ^ 32 * beList (A.toList.take 0) + (blockWord A 0).toNat :=
    beList_take_blockWord A (k := 0) (by decide)
  have h1 : beList (A.toList.take 8) = 2 ^ 32 * beList (A.toList.take 4) + (blockWord A 1).toNat :=
    beList_take_blockWord A (k := 1) (by decide)
  have h2 : beList (A.toList.take 12) = 2 ^ 32 * beList (A.toList.take 8) + (blockWord A 2).toNat :=
    beList_take_blockWord A (k := 2) (by decide)
  have h3 : beList (A.toList.take 16) = 2 ^ 32 * beList (A.toList.take 12) + (blockWord A 3).toNat :=
    beList_take_blockWord A (k := 3) (by decide)
  rw [be_eq_beList, ← hall]
  omega

/-- The words of REG, KS and IV in the CSR map (R40, R41, R42). -/
theorem csrWord_blocks (s : State) {k : Nat} (hk : k < 4) :
    csrWord s (BitVec.ofNat 6 (4 + k)) = blockWord s.fs.reg k ∧
      csrWord s (BitVec.ofNat 6 (8 + k)) = blockWord s.fs.ks k ∧
      csrWord s (BitVec.ofNat 6 (12 + k)) = blockWord s.iv k := by
  interval_cases k <;> exact ⟨rfl, rfl, rfl⟩

/-- Settles O56: bytes and integers from each block word's number, the words' places by the CSR map. -/
theorem blockCsrPacking : Obligations.BlockCsrPacking := by
  refine ⟨fun A k j _ hj => blockWord_byte A k hj, be_eq_blockWords, fun s k hb hk => ?_⟩
  simp only [csrRead_word_of_idle hb]
  exact csrWord_blocks s hk

/-- STATUS read while BUSY = 1: the draw's low bits, BUSY, FAULT, the draw's high bits side by side (R65). -/
theorem busyWord_status_toNat (s : State) (draw : Word) : (busyWord s 1#6 draw).toNat =
    (draw.extractLsb' 0 4).toNat + 16 * (BitVec.ofBool s.busy).toNat + 32 * (BitVec.ofBool s.fault).toNat +
      64 * (draw.extractLsb' 6 26).toNat := by
  have hindex : (1#6).toNat = 1 := rfl
  simp only [busyWord, hindex, if_true, append_toNat]
  omega

theorem busyWord_status_fields (s : State) (draw : Word) :
    (busyWord s 1#6 draw).extractLsb' 4 1 = BitVec.ofBool s.busy ∧
      (busyWord s 1#6 draw).extractLsb' 5 1 = BitVec.ofBool s.fault := by
  have hlow := (draw.extractLsb' 0 4).isLt
  have hbusy := (BitVec.ofBool s.busy).isLt
  have hfault := (BitVec.ofBool s.fault).isLt
  simp only [extractLsb'_eq_iff, busyWord_status_toNat]
  omega

/-- Settles O57: the fields of the STATUS word that a busy engine gives, whatever it draws. -/
theorem busyReadsOfBusyFaultAndBlksz : Obligations.BusyReadsOfBusyFaultAndBlksz := by
  intro s hb
  have hstatus := busyWord_status_fields s (Config.draw s.draws)
  rw [hb] at hstatus
  obtain ⟨hbusy, hfault⟩ := hstatus
  simp only [csrRead_word, hb, if_true]
  exact ⟨hbusy, hfault, rfl⟩

end Sys2Proof.Machine

/-! PROOF. The decoder's tests word by word, the commands they give, and the match and mask table (R71 to R79). -/

namespace Sys2Proof

open Machine

/-- R77's tests 2 to 4: a word with a defined opcode is rejected when a field that must be 0 is not. -/
def ReservedFieldSet (w : Word) : Prop :=
  rsvField w ≠ 0#2 ∨ (modeField w ≠ 0#2 ∧ opField w ≠ 0x5#4) ∨
    (lenField w ≠ 0#24 ∧ (opField w = 0x5#4 ∨ opField w = 0x6#4 ∨ opField w = 0x7#4 ∨ opField w = 0x8#4))

theorem lenMustBeZero_iff (op : BitVec 4) :
    lenMustBeZero op = true ↔ op = 0x5#4 ∨ op = 0x6#4 ∨ op = 0x7#4 ∨ op = 0x8#4 := by
  simp only [lenMustBeZero, Bool.or_eq_true, beq_iff_eq, or_assoc]

theorem opcode_defined_iff :
    ∀ op : BitVec 4, 1 ≤ op.toNat ∧ op.toNat ≤ 9 ↔ ¬(op = 0x0#4 ∨ 0xA ≤ op.toNat) := by decide

theorem opcode_reserved_cases :
    ∀ op : BitVec 4, op = 0x0#4 ∨ 0xA ≤ op.toNat → op = 0x0#4 ∨ (op = 0xA#4 ∨ op = 0xB#4) ∨ 0xC ≤ op.toNat := by
  decide

theorem opcode_defined_cases : ∀ op : BitVec 4, 1 ≤ op.toNat ∧ op.toNat ≤ 9 →
    op = 0x1#4 ∨ op = 0x2#4 ∨ op = 0x3#4 ∨ op = 0x4#4 ∨ op = 0x5#4 ∨ op = 0x6#4 ∨ op = 0x7#4 ∨ op = 0x8#4 ∨
      op = 0x9#4 := by decide

/-! ## The decoder on a word, by its opcode -/

theorem decode_of_op_zero {w : Word} (h : opField w = 0x0#4) :
    decode w = .command (.reservedZero (otherField w)) := if_pos h

theorem decode_of_op_AB {w : Word} (h : opField w = 0xA#4 ∨ opField w = 0xB#4) :
    decode w = .command (.reservedAB (opField w) (otherField w)) := by
  have h0 : opField w ≠ 0x0#4 := by rcases h with h | h <;> rw [h] <;> decide
  rw [decode, if_neg h0, if_pos h]

theorem decode_of_op_CF {w : Word} (h : 0xC ≤ (opField w).toNat) :
    decode w = .command (.reservedCF (opField w) (otherField w)) := by
  have hlow : ∀ op : BitVec 4, 0xC ≤ op.toNat → op ≠ 0x0#4 ∧ ¬(op = 0xA#4 ∨ op = 0xB#4) := by decide
  obtain ⟨h0, hAB⟩ := hlow _ h
  rw [decode, if_neg h0, if_neg hAB, if_pos h]

/-- The decoder on a defined opcode makes R77's tests 2 to 4 only. -/
theorem decode_of_defined {w : Word} (h : 1 ≤ (opField w).toNat ∧ (opField w).toNat ≤ 9) :
    (ReservedFieldSet w → decode w = .reservedField w) ∧
      (¬ReservedFieldSet w → decode w = .command (commandOf (opField w) (modeField w) (lenField w).toNat)) := by
  have hlow : ∀ op : BitVec 4, 1 ≤ op.toNat ∧ op.toNat ≤ 9 →
      op ≠ 0x0#4 ∧ ¬(op = 0xA#4 ∨ op = 0xB#4) ∧ ¬0xC ≤ op.toNat := by decide
  obtain ⟨h0, hAB, hCF⟩ := hlow _ h
  rw [decode, if_neg h0, if_neg hAB, if_neg hCF, ReservedFieldSet, ← lenMustBeZero_iff]
  split_ifs with hrsv hmode hlen
  · exact ⟨fun _ => rfl, fun hclear => absurd (.inl hrsv) hclear⟩
  · exact ⟨fun _ => rfl, fun hclear => absurd (.inr (.inl hmode)) hclear⟩
  · exact ⟨fun _ => rfl, fun hclear => absurd (.inr (.inr hlen)) hclear⟩
  · exact ⟨fun hset => absurd hset (by simp only [hrsv, hmode, hlen, or_self, not_false_eq_true]), fun _ => rfl⟩

/-- A word with a reserved opcode is a command that reports ILLEGAL_OP, whatever its other fields (R76). -/
theorem decode_of_reserved {w : Word} (h : opField w = 0x0#4 ∨ 0xA ≤ (opField w).toNat) :
    ∃ i, decode w = .command i ∧ encode i = w ∧ ∀ s : State, exec i s = .next (status .illegalOp s) := by
  rcases opcode_reserved_cases _ h with h0 | hAB | hCF
  · exact ⟨_, decode_of_op_zero h0, by rw [encode, ← h0, other_fields], fun _ => rfl⟩
  · exact ⟨_, decode_of_op_AB hAB, other_fields w, fun _ => rfl⟩
  · exact ⟨_, decode_of_op_CF hCF, other_fields w, fun _ => rfl⟩

/-- A word that is no command is rejected as the word it is. -/
theorem decode_eq_reservedField {w : Word} (h : ∀ i, decode w ≠ .command i) : decode w = .reservedField w := by
  by_cases hop : opField w = 0x0#4 ∨ 0xA ≤ (opField w).toNat
  · obtain ⟨i, hd, -⟩ := decode_of_reserved hop
    exact absurd hd (h i)
  · obtain ⟨hset, hclear⟩ := decode_of_defined ((opcode_defined_iff _).mpr hop)
    exact hset (not_not.mp fun hnot => h _ (hclear hnot))

/-- Settles O4: the opcode's class decides between test 1 and the others, and the command is the opcode's. -/
theorem wordTestsInOrder : Obligations.WordTestsInOrder := by
  intro w
  refine ⟨fun hop => ?_, fun hop => ?_⟩
  · obtain ⟨i, hd, -, hexec⟩ := decode_of_reserved hop
    exact ⟨i, hd, hexec⟩
  · obtain ⟨hset, hclear⟩ := decode_of_defined ((opcode_defined_iff _).mpr hop)
    refine ⟨fun h => ⟨hset h, fun s => by rw [runWord, hset h]⟩, fun h => ?_⟩
    rw [hclear h]
    refine ⟨?_, ?_, ?_, ?_, ?_, ?_, ?_, ?_, ?_⟩ <;> (intro hvalue; rw [hvalue]; rfl)

/-! ## Commands to words and back -/

/-- The decoder on an assembled word of an opcode whose LEN is a count or value (R74). -/
theorem decode_assemble_count {op : BitVec 4} {n : Nat} (hop : 1 ≤ op.toNat ∧ op.toNat ≤ 9)
    (hlen : lenMustBeZero op = false) (hn : fitsLen n = true) :
    decode (assemble op 0#2 (BitVec.ofNat 24 n)) = .command (commandOf op 0#2 n) := by
  rw [decode_assemble op _ _ hop (.inl rfl) (.inr hlen), Laws.WordPayload.toNat_of_fits hn]

/-- Settles O1, constructor by constructor: the fields of the assembled word pass the decoder's tests. -/
theorem decodeOfEncodeIsTheCommand : Obligations.DecodeOfEncodeIsTheCommand := by
  intro i hw
  cases i with
  | encrypt n => exact decode_assemble_count (by decide) rfl hw
  | decrypt n => exact decode_assemble_count (by decide) rfl hw
  | setkey n => exact decode_assemble_count (by decide) rfl hw
  | setiv n => exact decode_assemble_count (by decide) rfl hw
  | setmode m => exact decode_assemble 0x5#4 m 0#24 (by decide) (.inr rfl) (.inl rfl)
  | cbon => exact decode_assemble 0x6#4 0#2 0#24 (by decide) (.inl rfl) (.inl rfl)
  | cboff => exact decode_assemble 0x7#4 0#2 0#24 (by decide) (.inl rfl) (.inl rfl)
  | resetfs => exact decode_assemble 0x8#4 0#2 0#24 (by decide) (.inl rfl) (.inl rfl)
  | setblklen v => exact decode_assemble_count (by decide) rfl hw
  | reservedZero other => rw [encode, decode_of_op_zero (opField_other other _), otherField_other]
  | reservedAB op other =>
    have hop : op = 0xA#4 ∨ op = 0xB#4 := by simpa [Instr.wellFormed] using hw
    rw [encode, decode_of_op_AB (by rwa [opField_other]), opField_other, otherField_other]
  | reservedCF op other =>
    have hrow : ∀ op : BitVec 4, (Instr.reservedCF op 0).wellFormed = true → 0xC ≤ op.toNat := by decide
    rw [encode, decode_of_op_CF (by rw [opField_other]; exact hrow op hw), opField_other, otherField_other]

/-- A word that passes R77's tests has zero in every field that its command does not use (R74). -/
theorem unused_fields_zero {w : Word} (h : ¬ReservedFieldSet w) :
    rsvField w = 0#2 ∧ (opField w ≠ 0x5#4 → modeField w = 0#2) ∧
      (lenMustBeZero (opField w) = true → lenField w = 0#24) := by
  simp only [ReservedFieldSet, ← lenMustBeZero_iff, not_or, not_and, not_not] at h
  obtain ⟨hrsv, hmode, hlen⟩ := h
  exact ⟨hrsv, fun hop => by_contra fun hm => hop (hmode hm), fun hop => by_contra fun hl => hlen hl hop⟩

/-- The command that a defined opcode names has the assembled word, when the fields the command does not use are 0. -/
theorem encode_commandOf {op : BitVec 4} {m : BitVec 2} {len : BitVec 24} (hop : 1 ≤ op.toNat ∧ op.toNat ≤ 9)
    (hmode : op ≠ 0x5#4 → m = 0#2) (hlen : lenMustBeZero op = true → len = 0#24) :
    encode (commandOf op m len.toNat) = assemble op m len := by
  have hcount : ∀ op, assemble op 0#2 (BitVec.ofNat 24 len.toNat) = assemble op 0#2 len := fun op => by
    rw [BitVec.ofNat_toNat, BitVec.setWidth_eq]
  obtain rfl | rfl | rfl | rfl | rfl | rfl | rfl | rfl | rfl := opcode_defined_cases op hop
  · rw [hmode (by decide)]; exact hcount _
  · rw [hmode (by decide)]; exact hcount _
  · rw [hmode (by decide)]; exact hcount _
  · rw [hmode (by decide)]; exact hcount _
  · rw [hlen rfl]; rfl
  · rw [hmode (by decide), hlen rfl]; rfl
  · rw [hmode (by decide), hlen rfl]; rfl
  · rw [hmode (by decide), hlen rfl]; rfl
  · rw [hmode (by decide)]; exact hcount _

/-- Settles O2: a reserved opcode's word is its two parts, and a defined opcode's word is assembled from its fields. -/
theorem encodeOfDecodeIsTheWord : Obligations.EncodeOfDecodeIsTheWord := by
  intro w i h
  refine ⟨?_, decode_wellFormed h⟩
  by_cases hop : opField w = 0x0#4 ∨ 0xA ≤ (opField w).toNat
  · obtain ⟨j, hd, hencode, -⟩ := decode_of_reserved hop
    rw [h, Decoded.command.injEq] at hd
    rwa [hd]
  · have hop := (opcode_defined_iff _).mpr hop
    obtain ⟨hset, hclear⟩ := decode_of_defined hop
    have hnot : ¬ReservedFieldSet w := fun hs => by cases h.symm.trans (hset hs)
    obtain ⟨hrsv, hmode, hlen⟩ := unused_fields_zero hnot
    rw [hclear hnot, Decoded.command.injEq] at h
    rw [← h, encode_commandOf hop hmode hlen, assemble_fields w hrsv]

/-- Settles O5: both directions of each line by evaluation. -/
theorem encodingExamplesOfTheManual : Obligations.EncodingExamplesOfTheManual := by
  unfold Obligations.EncodingExamplesOfTheManual
  decide

/-! ## The match and mask table (R79) -/

theorem and_eq_iff_fields (w mask v : Word) :
    w &&& mask = v ↔ opField w &&& opField mask = opField v ∧ modeField w &&& modeField mask = modeField v ∧
      rsvField w &&& rsvField mask = rsvField v ∧ lenField w &&& lenField mask = lenField v := by
  rw [word_eq_iff_fields, opField_and, modeField_and, rsvField_and, lenField_and]

theorem otherField_and (w m : Word) : otherField (w &&& m) = otherField w &&& otherField m := BitVec.extractLsb'_and

/-- The mask of the rows with a count or value covers OP, MODE and RSV, and leaves LEN free. -/
theorem and_countMask_iff (w : Word) (op : BitVec 4) :
    w &&& 0x000000FF#32 = assemble op 0#2 0#24 ↔ opField w = op ∧ modeField w = 0#2 ∧ rsvField w = 0#2 := by
  have hop : opField 0x000000FF#32 = BitVec.allOnes 4 := rfl
  have hmode : modeField 0x000000FF#32 = BitVec.allOnes 2 := rfl
  have hrsv : rsvField 0x000000FF#32 = BitVec.allOnes 2 := rfl
  have hlen : lenField 0x000000FF#32 = 0#24 := rfl
  simp only [and_eq_iff_fields, hop, hmode, hrsv, hlen, BitVec.and_allOnes, BitVec.and_zero, opField_assemble,
    modeField_assemble, rsvField_assemble, lenField_assemble, and_true]

/-- SETMODE's mask covers OP, RSV and LEN, and leaves the MODE field free. -/
theorem and_setmodeMask_iff (w : Word) :
    w &&& 0xFFFFFFCF#32 = assemble 0x5#4 0#2 0#24 ↔ opField w = 0x5#4 ∧ rsvField w = 0#2 ∧ lenField w = 0#24 := by
  have hop : opField 0xFFFFFFCF#32 = BitVec.allOnes 4 := rfl
  have hmode : modeField 0xFFFFFFCF#32 = 0#2 := rfl
  have hrsv : rsvField 0xFFFFFFCF#32 = BitVec.allOnes 2 := rfl
  have hlen : lenField 0xFFFFFFCF#32 = BitVec.allOnes 24 := rfl
  simp only [and_eq_iff_fields, hop, hmode, hrsv, hlen, BitVec.and_allOnes, BitVec.and_zero, opField_assemble,
    modeField_assemble, rsvField_assemble, lenField_assemble, true_and]

/-- A reserved row's mask covers bits of OP alone. -/
theorem and_opMask_iff (w : Word) (mask op : BitVec 4) :
    w &&& (0#28 ++ mask) = 0#28 ++ op ↔ opField w &&& mask = op := by
  constructor
  · intro h
    have h := congrArg opField h
    rwa [opField_and, opField_other, opField_other] at h
  · intro h
    rw [← other_fields (w &&& (0#28 ++ mask)), otherField_and, opField_and, otherField_other, opField_other, h,
      BitVec.and_zero]

/-- A command's word matches a row of the command's mnemonic. -/
theorem exists_row_of_encode {i : Instr} (h : i.wellFormed = true) :
    ∃ row ∈ opcodeRows, row.mnemonic = i.mnemonic ∧ encode i &&& row.mask = row.pattern := by
  have hcount : ∀ op len, assemble op 0#2 len &&& 0x000000FF#32 = assemble op 0#2 0#24 := fun op len =>
    (and_countMask_iff _ op).mpr ⟨opField_assemble .., modeField_assemble .., rsvField_assemble ..⟩
  cases i with
  | encrypt n => exact ⟨_, List.mem_of_getElem? (i := 0) rfl, rfl, hcount 0x1#4 _⟩
  | decrypt n => exact ⟨_, List.mem_of_getElem? (i := 1) rfl, rfl, hcount 0x2#4 _⟩
  | setkey n => exact ⟨_, List.mem_of_getElem? (i := 2) rfl, rfl, hcount 0x3#4 _⟩
  | setiv n => exact ⟨_, List.mem_of_getElem? (i := 3) rfl, rfl, hcount 0x4#4 _⟩
  | setmode m =>
    exact ⟨_, List.mem_of_getElem? (i := 4) rfl, rfl, (and_setmodeMask_iff _).mpr
      ⟨opField_assemble .., rsvField_assemble .., lenField_assemble ..⟩⟩
  | cbon => exact ⟨_, List.mem_of_getElem? (i := 5) rfl, rfl, rfl⟩
  | cboff => exact ⟨_, List.mem_of_getElem? (i := 6) rfl, rfl, rfl⟩
  | resetfs => exact ⟨_, List.mem_of_getElem? (i := 7) rfl, rfl, rfl⟩
  | setblklen v => exact ⟨_, List.mem_of_getElem? (i := 8) rfl, rfl, hcount 0x9#4 _⟩
  | reservedZero other =>
    refine ⟨_, List.mem_of_getElem? (i := 9) rfl, rfl, (and_opMask_iff _ 0xF#4 0x0#4).mpr ?_⟩
    rw [encode, opField_other, BitVec.zero_and]
  | reservedAB op other =>
    have hrow : ∀ op : BitVec 4, (Instr.reservedAB op 0).wellFormed = true → op &&& 0xE#4 = 0xA#4 := by decide
    refine ⟨_, List.mem_of_getElem? (i := 10) rfl, rfl, (and_opMask_iff _ 0xE#4 0xA#4).mpr ?_⟩
    rw [encode, opField_other, hrow op h]
  | reservedCF op other =>
    have hrow : ∀ op : BitVec 4, (Instr.reservedCF op 0).wellFormed = true → op &&& 0xC#4 = 0xC#4 := by decide
    refine ⟨_, List.mem_of_getElem? (i := 11) rfl, rfl, (and_opMask_iff _ 0xC#4 0xC#4).mpr ?_⟩
    rw [encode, opField_other, hrow op h]

/-- A word of a row with a count or value is that row's command. -/
theorem decode_of_countMask {w : Word} {op : BitVec 4} (hop : 1 ≤ op.toNat ∧ op.toNat ≤ 9)
    (hlen : lenMustBeZero op = false) (h : w &&& 0x000000FF#32 = assemble op 0#2 0#24) :
    decode w = .command (commandOf op 0#2 (lenField w).toNat) := by
  obtain ⟨rfl, hmode, hrsv⟩ := (and_countMask_iff w op).mp h
  have hd := decode_assemble (opField w) (modeField w) (lenField w) hop (.inl hmode) (.inr hlen)
  rwa [assemble_fields w hrsv, hmode] at hd

theorem decode_of_setmodeMask {w : Word} (h : w &&& 0xFFFFFFCF#32 = assemble 0x5#4 0#2 0#24) :
    decode w = .command (.setmode (modeField w)) := by
  obtain ⟨hop, hrsv, hlen⟩ := (and_setmodeMask_iff w).mp h
  have hd := decode_assemble 0x5#4 (modeField w) 0#24 (by decide) (.inr rfl) (.inl rfl)
  rwa [← hop, ← hlen, assemble_fields w hrsv, hop] at hd

/-- A word that matches a row is a command of the row's mnemonic. -/
theorem exists_command_of_row {row : OpcodeRow} (hrow : row ∈ opcodeRows) {w : Word}
    (h : w &&& row.mask = row.pattern) : ∃ i, decode w = .command i ∧ i.mnemonic = row.mnemonic := by
  have hfull : ∀ v, w &&& 0xFFFFFFFF#32 = v → w = v := fun v hv => (BitVec.and_allOnes (x := w)).symm.trans hv
  simp only [opcodeRows, List.mem_cons, List.not_mem_nil, or_false] at hrow
  obtain rfl | rfl | rfl | rfl | rfl | rfl | rfl | rfl | rfl | rfl | rfl | rfl := hrow
  · exact ⟨_, decode_of_countMask (op := 0x1#4) (by decide) rfl h, rfl⟩
  · exact ⟨_, decode_of_countMask (op := 0x2#4) (by decide) rfl h, rfl⟩
  · exact ⟨_, decode_of_countMask (op := 0x3#4) (by decide) rfl h, rfl⟩
  · exact ⟨_, decode_of_countMask (op := 0x4#4) (by decide) rfl h, rfl⟩
  · exact ⟨_, decode_of_setmodeMask h, rfl⟩
  · exact ⟨.cbon, by rw [hfull _ h]; rfl, rfl⟩
  · exact ⟨.cboff, by rw [hfull _ h]; rfl, rfl⟩
  · exact ⟨.resetfs, by rw [hfull _ h]; rfl, rfl⟩
  · exact ⟨_, decode_of_countMask (op := 0x9#4) (by decide) rfl h, rfl⟩
  · have hop := (and_opMask_iff w 0xF#4 0x0#4).mp h
    exact ⟨_, decode_of_op_zero (BitVec.and_allOnes.symm.trans hop), rfl⟩
  · have hAB : ∀ op : BitVec 4, op &&& 0xE#4 = 0xA#4 → op = 0xA#4 ∨ op = 0xB#4 := by decide
    exact ⟨_, decode_of_op_AB (hAB _ ((and_opMask_iff w 0xE#4 0xA#4).mp h)), rfl⟩
  · have hCF : ∀ op : BitVec 4, op &&& 0xC#4 = 0xC#4 → 0xC ≤ op.toNat := by decide
    exact ⟨_, decode_of_op_CF (hCF _ ((and_opMask_iff w 0xC#4 0xC#4).mp h)), rfl⟩

/-- A command's word matches a row of its mnemonic. -/
theorem exists_row_of_decode {w : Word} {i : Instr} (h : decode w = .command i) :
    ∃ row ∈ opcodeRows, row.mnemonic = i.mnemonic ∧ w &&& row.mask = row.pattern := by
  obtain ⟨hencode, hw⟩ := encodeOfDecodeIsTheWord w i h
  rw [← hencode]
  exact exists_row_of_encode hw

/-- The mnemonic names its row. -/
theorem opcodeRow_eq_of_mnemonic {row row' : OpcodeRow} (h : row ∈ opcodeRows) (h' : row' ∈ opcodeRows)
    (hname : row.mnemonic = row'.mnemonic) : row = row' :=
  List.inj_on_of_nodup_map (f := OpcodeRow.mnemonic) (by decide) h h' hname

/-- Settles O3: a row's words are commands of its mnemonic, and a command's word matches the one row of its mnemonic. -/
theorem matchMaskTableNamesTheCommand : Obligations.MatchMaskTableNamesTheCommand := by
  intro w
  refine ⟨fun row hrow => ⟨exists_command_of_row hrow, ?_⟩, fun hnone => decode_eq_reservedField ?_⟩
  · rintro ⟨i, hd, hname⟩
    obtain ⟨row', hrow', hname', hmatch⟩ := exists_row_of_decode hd
    rwa [← opcodeRow_eq_of_mnemonic hrow' hrow (hname'.trans hname)]
  · intro i hd
    obtain ⟨row, hrow, -, hmatch⟩ := exists_row_of_decode hd
    exact hnone row hrow hmatch

end Sys2Proof

/-! PROOF. SETMODE and the reserved opcodes: commands without a payload that write a result code and at most MODE
and FS (R76, R133). -/

namespace Sys2Proof.Machine

/-- SETMODE with a streaming mode writes MODE and resets FS (R133). -/
theorem exec_setmode_streaming {m : BitVec 2} {mode : Mode} (hm : streamingMode m = some mode) {s : State}
    (h : s.progress = none) : exec (.setmode m) s = .next { s with mode := mode, fs := initFS s.iv, err := .ok } := by
  simp only [exec, execSetmode, hm]
  exact congrArg _ (status_of_idle (s := fsReset { s with mode := mode }) h .ok)

/-- SETMODE with any other value is rejected with MODE_VALUE (R78, R133). -/
theorem exec_setmode_rejected {m : BitVec 2} (hm : streamingMode m = none) {s : State} (h : s.progress = none) :
    exec (.setmode m) s = .next { s with err := .modeValue } := by
  simp only [exec, execSetmode, hm, status_of_idle h]

/-- Settles O48: the values 0, 1 and 2 name streaming modes, and 3 does not. -/
theorem setmodeEffect : Obligations.SetmodeEffect := by
  rintro s ⟨-, -, hp⟩
  exact ⟨exec_setmode_streaming rfl hp, exec_setmode_streaming rfl hp, exec_setmode_streaming rfl hp,
    exec_setmode_rejected rfl hp⟩

/-- Settles O52: each reserved command writes its code, and each word with a reserved opcode is such a command. -/
theorem reservedOpcodeIsIllegal : Obligations.ReservedOpcodeIsIllegal := by
  refine ⟨fun s other op hidle => ?_, fun s w ws hidle hcmd hop => ?_⟩
  · obtain ⟨-, -, hp⟩ := hidle
    rw [← status_of_idle hp]
    exact ⟨rfl, rfl, rfl⟩
  · obtain ⟨i, hd, -, hexec⟩ := decode_of_reserved hop
    obtain ⟨-, -, hp⟩ := id hidle
    rw [stepRunsTheDecodedCommand s w ws i hidle hcmd hd, hexec]
    exact congrArg _ (status_of_idle (s := { s with cmd := ws }) hp _)

end Sys2Proof.Machine

/-! PROOF. One byte step: REG, KS and CUR after it in each mode, and what it sees of E (R102 to R111, R119, R125). -/

namespace Sys2Proof.Machine

/-- The first byte of a block uses a new keystream block E(key(), REG) (R103). -/
theorem byteStep_first (E : List Byte → Block → Block) (mode : Mode) (key : List Byte) (dir : Direction)
    {S : FeedbackState} (x : Byte) (h : S.cur = 0#4) :
    byteStep E mode key dir S x = some
      (⟨S.reg, segmentKept mode dir (E key S.reg) 0 [x] [x ^^^ byteAt (E key S.reg) 0#4], 1#4⟩,
        x ^^^ byteAt (E key S.reg) 0#4) := by
  have hbegin : beginBlock E key S = { S with ks := E key S.reg } := if_pos h
  rw [byteStep_inside E mode key dir S x (by rw [h]; decide), keepByte_ks, hbegin, h]
  rfl

/-- The last byte of a block in CTR completes it with REG counted on (R105). -/
theorem byteStep_ctr_last (E : List Byte → Block → Block) (key : List Byte) (dir : Direction) {S : FeedbackState}
    (x : Byte) (h : S.cur = 15#4) :
    byteStep E .ctr key dir S x = some
      (⟨beBytes ((be S.reg + 1) % 2 ^ (8 * blockBytes)), zeroBlock, 0#4⟩, x ^^^ byteAt S.ks S.cur) := by
  have hbegin : beginBlock E key S = S := if_neg (by rw [h]; decide)
  rw [byteStep_last E .ctr key dir S x h, hbegin]
  rfl

/-- The last byte of a block in OFB completes it with REG the keystream block just finished (R106). -/
theorem byteStep_ofb_last (E : List Byte → Block → Block) (key : List Byte) (dir : Direction) {S : FeedbackState}
    (x : Byte) (h : S.cur = 15#4) :
    byteStep E .ofb key dir S x = some (⟨S.ks, zeroBlock, 0#4⟩, x ^^^ byteAt S.ks S.cur) := by
  have hbegin : beginBlock E key S = S := if_neg (by rw [h]; decide)
  rw [byteStep_last E .ofb key dir S x h, hbegin]
  rfl

/-- Settles O33: the counter stays below 2^(8B), so its bytes spell it. -/
theorem counterIncrementsAtBlockCompletion : Obligations.CounterIncrementsAtBlockCompletion := by
  intro E key dir S x hc
  exact ⟨_, _, byteStep_ctr_last E key dir x hc, be_beBytes (Nat.mod_lt _ (Nat.two_pow_pos _)), rfl⟩

/-- The block buffer once a byte is used: in CFB the ciphertext byte stands at the cursor (R104). -/
theorem keepByte_ks_toList (mode : Mode) (dir : Direction) (x y : Byte) (S : FeedbackState) :
    (keepByte mode dir x y S).ks.toList =
      if mode = .cfb then S.ks.toList.set S.cur.toNat (cipherByte dir x y) else S.ks.toList := by
  cases mode with
  | cfb => rw [keepByte_cfb, if_pos rfl, putByte_toList]
  | ctr => rfl
  | ofb => rfl
  | blk => rfl

/-- Settles O36: a byte that does not complete the block, mode by mode. -/
theorem cfbKeepsTheCiphertextByte : Obligations.CfbKeepsTheCiphertextByte := by
  intro E mode key dir S x hlt
  refine ⟨_, _, byteStep_inside E mode key dir S x hlt, rfl, ?_, ?_, ?_⟩
  · rw [BitVec.toNat_add, BitVec.toNat_ofNat]
    omega
  · rw [beginBlock_ks, beginBlock_cur]
  · rw [keepByte_ks_toList, beginBlock_ks, beginBlock_cur]
    cases mode with
    | cfb => cases dir <;> rfl
    | ctr => rfl
    | ofb => rfl
    | blk => rfl

theorem beginBlock_congr {E E' : List Byte → Block → Block} {key : List Byte} {S : FeedbackState}
    (h : S.cur = 0#4 → E key S.reg = E' key S.reg) : beginBlock E key S = beginBlock E' key S := by
  by_cases hc : S.cur = 0#4
  · rw [beginBlock, beginBlock, if_pos hc, if_pos hc, h hc]
  · rw [beginBlock, beginBlock, if_neg hc, if_neg hc]

/-- Settles O40: E is called in `beginBlock` alone, and REG moves at block completion alone. -/
theorem primitiveSeesOnlyKeyAndRegister : Obligations.PrimitiveSeesOnlyKeyAndRegister := by
  refine ⟨fun E E' mode key dir S x hE => ?_, fun E mode key dir S x hc => ?_⟩
  · rw [byteStep_eq, byteStep_eq, beginBlock_congr hE]
  · have hlt : S.cur.toNat < 15 := by
      have hB : S.cur.toNat < 16 := cur_lt S
      have hne : S.cur.toNat ≠ 15 := fun h => hc (BitVec.eq_of_toNat_eq h)
      omega
    exact ⟨_, _, byteStep_inside E mode key dir S x hlt, rfl⟩

end Sys2Proof.Machine

/-! PROOF. Whole blocks, and the block-wise algorithm (R106, R107, R120). -/

namespace Sys2Proof.Machine

/-- A whole block from a block boundary: the XOR with E(key(), REG), and REG from the block buffer (R105 to R108). -/
theorem byteFold_block (E : List Byte → Block → Block) (mode : Mode) (key : List Byte) (dir : Direction)
    {S : FeedbackState} {xs : List Byte} (hc : S.cur = 0#4) (hlen : xs.length = blockBytes) :
    byteFold E mode key dir S xs = some
      (⟨nextReg mode { S with ks := segmentKept mode dir (E key S.reg) 0 xs (segmentOut (E key S.reg) 0 xs) },
        zeroBlock, 0#4⟩, segmentOut (E key S.reg) 0 xs) := by
  have hK : segmentBlock E key S = E key S.reg := if_pos hc
  have hz : S.cur.toNat = 0 := by rw [hc]; rfl
  have hne : xs ≠ [] := List.ne_nil_of_length_pos (by rw [hlen]; decide)
  have hfull : S.cur.toNat + xs.length = blockBytes := by rw [hz, hlen, Nat.zero_add]
  rw [byteFold_segment E mode key dir S xs hne hfull.le, hK, segmentState, if_pos hfull, hz]

/-- Settles O35: the last byte of a block and the first of the next, and a whole block. -/
theorem ofbFeedsBackTheKeystreamBlock : Obligations.OfbFeedsBackTheKeystreamBlock := by
  refine ⟨fun E key dir S x x' hc => ?_, fun E key dir S xs hc hlen => ?_⟩
  · exact ⟨_, _, _, _, byteStep_ofb_last E key dir x hc, rfl, byteStep_first E .ofb key dir x' rfl, rfl, rfl⟩
  · exact ⟨_, _, byteFold_block E .ofb key dir hc hlen, rfl, rfl⟩

/-- The block buffer of a whole block in CFB is the ciphertext (R104). -/
theorem segmentKept_cfb_block (dir : Direction) (K : Block) {xs ys : List Byte} (hxs : xs.length = blockBytes)
    (hys : ys.length = blockBytes) : (segmentKept .cfb dir K 0 xs ys).toList = cipherBytes dir xs ys := by
  have hz : (cipherBytes dir xs ys).length = blockBytes := by
    cases dir with
    | enc => exact hys
    | dec => exact hxs
  have hrest : K.toList.drop (0 + xs.length) = [] := List.drop_eq_nil_of_le (by simp [hxs])
  rw [segmentKept_cfb, hrest, List.take_zero, List.nil_append, List.append_nil, blockOfBytes,
    arrayOfBytes_toList_of_length _ _ hz]

/-- Settles O37: a whole block fills the buffer with its ciphertext, which is REG from then on. -/
theorem cfbFeedsBackTheCiphertextBlock : Obligations.CfbFeedsBackTheCiphertextBlock := by
  intro E key dir S xs hc hlen
  have hout : (segmentOut (E key S.reg) 0 xs).length = blockBytes :=
    (segmentOut_length _ (by rw [hlen, Nat.zero_add])).trans hlen
  refine ⟨_, _, byteFold_block E .cfb key dir hc hlen, rfl, ?_, rfl, rfl⟩
  rw [nextReg_cfb, segmentKept_cfb_block dir _ hlen hout]
  cases dir <;> rfl

/-- The block-wise algorithm computes the fold of the byte steps once it has a round for every byte: each round takes
one byte at least. -/
theorem byteFold_eq_blockwise (E : List Byte → Block → Block) (mode : Mode) (key : List Byte) (dir : Direction)
    (fuel : Nat) (S : FeedbackState) {xs : List Byte} (hfuel : xs.length ≤ fuel) :
    byteFold E mode key dir S xs = some (blockwise E mode key dir fuel S xs) := by
  induction fuel generalizing S xs with
  | zero =>
    rw [List.eq_nil_of_length_eq_zero (Nat.le_zero.mp hfuel)]
    rfl
  | succ fuel ih =>
    by_cases hxs : xs = []
    · rw [blockwise, if_pos hxs, hxs, byteFold]
    · have hcur : S.cur.toNat < 16 := cur_lt S
      have hpos : 0 < xs.length := List.length_pos_iff.mpr hxs
      have hB : blockBytes = 16 := rfl
      obtain ⟨seg, hseg⟩ : ∃ seg, xs.take (blockBytes - S.cur.toNat) = seg := ⟨_, rfl⟩
      have hlen : seg.length = min (blockBytes - S.cur.toNat) xs.length := by rw [← hseg, List.length_take]
      have hsplit : seg ++ xs.drop seg.length = xs := by
        rw [hlen, ← hseg, List.take_eq_take_min, List.take_append_drop]
      have hrest : (xs.drop seg.length).length ≤ fuel := by
        rw [List.length_drop]
        omega
      have hfirst := byteFold_segment E mode key dir S seg (List.ne_nil_of_length_pos (by omega)) (by omega)
      have h := byteFold_append E mode key dir hfirst (ih _ hrest)
      rw [hsplit] at h
      rw [h, blockwise, if_neg hxs]
      simp only [hseg]

/-- Settles O31: `byteFold_eq_blockwise` with a round for every byte. -/
theorem byteStepsAgreeWithBlockwiseAlgorithm : Obligations.ByteStepsAgreeWithBlockwiseAlgorithm :=
  fun E mode key dir S _ => byteFold_eq_blockwise E mode key dir _ S le_rfl

end Sys2Proof.Machine

/-! PROOF. ENCRYPT and DECRYPT of one stream of bytes: where the direction does not matter (R119), and how one undoes
the other (R117). -/

namespace Sys2Proof.Machine

theorem keepByte_dir {mode : Mode} (h : mode ≠ .cfb) (dir dir' : Direction) (x y : Byte) (S : FeedbackState) :
    keepByte mode dir x y S = keepByte mode dir' x y S := by
  cases mode with
  | cfb => exact absurd rfl h
  | ctr => rfl
  | ofb => rfl
  | blk => rfl

/-- Outside CFB the byte step does not look at the direction (R119). -/
theorem byteStep_dir (E : List Byte → Block → Block) {mode : Mode} (key : List Byte) (h : mode ≠ .cfb)
    (dir dir' : Direction) (S : FeedbackState) (x : Byte) :
    byteStep E mode key dir S x = byteStep E mode key dir' S x := by
  rw [byteStep_eq, byteStep_eq, keepByte_dir h dir dir']

theorem byteFold_dir (E : List Byte → Block → Block) {mode : Mode} (key : List Byte) (h : mode ≠ .cfb)
    (dir dir' : Direction) (S : FeedbackState) (xs : List Byte) :
    byteFold E mode key dir S xs = byteFold E mode key dir' S xs := by
  induction xs generalizing S with
  | nil => rfl
  | cons x xs ih => simp only [byteFold, byteStep_dir E key h dir dir', ih]

/-- Settles O28: by the byte step, and by the fold that an accepted call computes. -/
theorem directionIrrelevantInCtrAndOfb : Obligations.DirectionIrrelevantInCtrAndOfb := by
  have hne : ∀ mode : Mode, mode = .ctr ∨ mode = .ofb → mode ≠ .cfb := by
    rintro _ (rfl | rfl) <;> decide
  refine ⟨fun E mode key S x hmode => byteStep_dir E key (hne _ hmode) .enc .dec S x,
    fun n s hidle hready hmode hdin hroom => ?_⟩
  obtain ⟨S₁, ys₁, hfold₁, -, hexec₁⟩ := exec_call_supplied .enc hidle hready hdin hroom
  obtain ⟨S₂, ys₂, hfold₂, -, hexec₂⟩ := exec_call_supplied .dec hidle hready hdin hroom
  rw [byteFold_dir _ _ (hne _ hmode) .enc .dec, hfold₂] at hfold₁
  cases hfold₁
  exact ⟨_, hexec₁, hexec₂⟩

/-- DECRYPT's byte step undoes ENCRYPT's: the XOR with one keystream byte, and one ciphertext byte kept (R104, R117). -/
theorem byteStep_round_trip {E : List Byte → Block → Block} {mode : Mode} {key : List Byte} {S S' : FeedbackState}
    {x y : Byte} (h : byteStep E mode key .enc S x = some (S', y)) : byteStep E mode key .dec S y = some (S', x) := by
  have hkeep : ∀ k, keepByte mode .dec (x ^^^ k) x (beginBlock E key S) =
      keepByte mode .enc x (x ^^^ k) (beginBlock E key S) := by
    cases mode <;> exact fun _ => rfl
  rw [byteStep_eq] at h
  cases h
  rw [byteStep_eq, BitVec.xor_assoc, BitVec.xor_self, BitVec.xor_zero, hkeep]

theorem byteFold_round_trip {E : List Byte → Block → Block} {mode : Mode} {key : List Byte} {S S' : FeedbackState}
    {xs ys : List Byte} (h : byteFold E mode key .enc S xs = some (S', ys)) :
    byteFold E mode key .dec S ys = some (S', xs) := by
  induction xs generalizing S ys with
  | nil =>
    cases h
    rfl
  | cons x xs ih =>
    have hstep := byteStep_eq E mode key .enc S x
    obtain ⟨S₂, zs, hrest, -⟩ := byteFold_completes E mode key .enc _ xs
    rw [byteFold_cons E mode key .enc hstep hrest] at h
    cases h
    exact byteFold_cons E mode key .dec (byteStep_round_trip hstep) (ih hrest)

end Sys2Proof.Machine

/-! PROOF. One call: its rejections, its end without bytes, and what an accepted call leaves (R115, R118, R121 to
R125). -/

namespace Sys2Proof.Machine

/-- A fold over a first part of the bytes gives the first part of the output bytes (R115). -/
theorem byteFold_take {E : List Byte → Block → Block} {mode : Mode} {key : List Byte} {dir : Direction}
    {S S' : FeedbackState} {xs ys : List Byte} (h : byteFold E mode key dir S xs = some (S', ys)) {k : Nat}
    (hk : k ≤ xs.length) : ∃ T, byteFold E mode key dir S (xs.take k) = some (T, ys.take k) := by
  obtain ⟨T, us, hfirst, hlen⟩ := byteFold_completes E mode key dir S (xs.take k)
  obtain ⟨U, vs, hrest, -⟩ := byteFold_completes E mode key dir T (xs.drop k)
  have hall := byteFold_append E mode key dir hfirst hrest
  rw [List.take_append_drop, h] at hall
  cases hall
  exact ⟨T, by rw [List.take_left' (hlen.trans (List.length_take_of_le hk)), hfirst]⟩

/-- Settles O32: the output bytes of the first k input bytes are a fold over those alone. -/
theorem outputDependsOnInputPrefix : Obligations.OutputDependsOnInputPrefix := by
  intro dir n k s d hidle hready hdin hd hroom hk heq
  obtain ⟨S₁, ys, hfold₁, hys, hexec₁⟩ := exec_call_supplied dir hidle hready hdin hroom
  obtain ⟨S₂, zs, hfold₂, hzs, hexec₂⟩ := exec_call_supplied dir (s := { s with din := d }) hidle hready hd hroom
  obtain ⟨T₁, htake₁⟩ := byteFold_take hfold₁ (hk.trans_eq (List.length_take_of_le hdin).symm)
  obtain ⟨T₂, htake₂⟩ := byteFold_take hfold₂ (hk.trans_eq (List.length_take_of_le hd).symm)
  rw [List.take_take, Nat.min_eq_left hk] at htake₁ htake₂
  rw [heq] at htake₂
  obtain ⟨-, hsame⟩ := Prod.mk.inj (Option.some.inj (htake₁.symm.trans htake₂))
  refine ⟨_, _, hexec₁, hexec₂, by rw [List.length_append, hys], by rw [List.length_append, hzs], ?_⟩
  rw [List.take_length_add_append, List.take_length_add_append, hsame]

/-- A call that its checks reject, with its payload on DIN (R121, R122, R152). -/
theorem exec_call_rejected (dir : Direction) {n : Nat} {s : State} (hidle : s.Idle) (hdin : n ≤ s.din.length)
    (h : checkProcess s ≠ .ok) :
    exec (callOf dir n) s = .next { s with din := s.din.drop n, err := checkProcess s } := by
  obtain ⟨-, -, hp⟩ := hidle
  rw [exec_callOf, processCommand_rejected _ _ dir n s h, rejectCommand_supplied _ _ _ _ s hdin,
    status_of_idle (s := popPresent n s) hp, popPresent]

/-- Settles O24: the code of the first check that fails (R153). -/
theorem unconfiguredCallIsRejected : Obligations.UnconfiguredCallIsRejected := by
  intro dir n s hidle hdin
  have hreject : ∀ code, code ≠ .ok → checkProcess s = code →
      exec (callOf dir n) s = .next { s with din := s.din.drop n, err := code } := by
    rintro _ hcode rfl
    exact exec_call_rejected dir hidle hdin hcode
  refine ⟨fun hmode => hreject _ (by decide) ?_, fun hmode hkey => hreject _ (by decide) ?_,
    fun hmode hkey hiv => hreject _ (by decide) ?_⟩
  · rw [checkProcess, if_pos hmode]
  · rw [checkProcess, if_neg hmode, if_pos hkey]
  · rw [checkProcess, if_neg hmode, if_neg hkey, if_pos hiv]

/-- An accepted call of no bytes ends at once, whatever DOUT holds (R118). -/
theorem processCommand_empty (P : Params) (w : Word) (dir : Direction) {s : State} (hidle : s.Idle)
    (hready : s.Ready) : processCommand P w dir 0 s = { s with err := .ok } := by
  obtain ⟨-, -, hp⟩ := hidle
  have hflush : flush P.doutDepth [] s.dout = ([], s.dout) := rfl
  rw [processCommand_eq, callTask_of_ready hready]
  simp only [advance, advanceProcess_eq, pump_zero, hflush, and_self, if_true, Work.fsAfter_read]
  exact status_of_idle hp .ok

/-- Settles O25: ENCRYPT 0 and DECRYPT 0 are `Process` of no bytes. -/
theorem emptyCallChangesOnlyErr : Obligations.EmptyCallChangesOnlyErr := by
  intro dir s hidle hready
  refine ⟨?_, fun P w => processCommand_empty P w dir hidle hready⟩
  rw [exec_callOf, processCommand_empty _ _ dir hidle hready]

theorem callStart_of_cb {s : State} (h : s.cb = true) : callStart s = s.fs := if_pos h

theorem callStart_of_not_cb {s : State} (h : s.cb = false) : callStart s = initFS s.iv := by
  rw [callStart, h, if_neg Bool.false_ne_true]

/-- Settles O29: both calls fold from the init state of one IV, and write no FS. -/
theorem callsWithoutContinuousBufferRepeat : Obligations.CallsWithoutContinuousBufferRepeat := by
  intro n s₁ s₂ hidle₁ hidle₂ hready₁ hready₂ hcb₁ hcb₂ hmode hkey hlen hiv hdin heq hroom₁ hroom₂
  have hdin₂ : n ≤ s₂.din.length := by
    have h := congrArg List.length heq
    rw [List.length_take, List.length_take] at h
    omega
  have hkeys : keyInUse s₂ = keyInUse s₁ := by rw [keyInUse, keyInUse, hkey, hlen]
  obtain ⟨S₁, ys₁, hfold₁, -, hexec₁⟩ := exec_call_supplied .enc hidle₁ hready₁ hdin hroom₁
  obtain ⟨S₂, ys₂, hfold₂, -, hexec₂⟩ := exec_call_supplied .enc hidle₂ hready₂ hdin₂ hroom₂
  rw [callStart_of_not_cb hcb₂, hmode, hkeys, hiv, heq, ← callStart_of_not_cb hcb₁, hfold₁] at hfold₂
  cases hfold₂
  exact ⟨_, _, _, hexec₁, hexec₂, rfl, rfl, by simp [hcb₁], by simp [hcb₂]⟩

/-- Settles O30: the cursor counts the bytes modulo B, and at 0 the FS invariant clears the buffer. -/
theorem exactBlockBoundaryLeavesNothingPending : Obligations.ExactBlockBoundaryLeavesNothingPending := by
  intro dir n s hidle hready hcb hok hdin hroom hbound
  obtain ⟨S', ys, hfold, -, hexec⟩ := exec_call_supplied dir hidle hready hdin hroom
  rw [callStart_of_cb hcb] at hfold
  have hcur : S'.cur = 0#4 := by
    refine BitVec.eq_of_toNat_eq ?_
    rw [byteFold_cur hfold, List.length_take_of_le hdin]
    exact hbound
  refine ⟨_, hexec, ?_⟩
  simp only [hcb, if_true]
  exact ⟨hcur, byteFold_ok hok hfold hcur⟩

/-- REG of all ones counts on to REG of all zeros (R125). -/
theorem ctr_wraps {A : Block} (h : A = Vector.replicate blockBytes 0xFF#8) :
    beBytes ((be A + 1) % 2 ^ (8 * blockBytes)) = zeroBlock := by
  have hwrap : (be A + 1) % 2 ^ (8 * blockBytes) = be zeroBlock := by
    rw [h]
    decide
  rw [hwrap, beBytes_be]

/-- Settles O34: the wrap by `ctr_wraps`, and a call of one byte that completes the block. -/
theorem counterWrapsSilently : Obligations.CounterWrapsSilently := by
  refine ⟨fun E key dir S x x' hc hreg => ?_, fun dir s hidle hready hmode hcb hdin hroom hc hreg => ?_⟩
  · have hlast := byteStep_ctr_last E key dir x hc
    rw [ctr_wraps hreg] at hlast
    exact ⟨_, _, _, _, hlast, rfl, byteStep_first E .ctr key dir x' rfl, rfl⟩
  · obtain ⟨S', ys, hfold, -, hexec⟩ := exec_call_supplied dir hidle hready hdin hroom
    obtain ⟨-, hf, hp⟩ := hidle
    obtain ⟨x, hx⟩ := List.length_eq_one_iff.mp (List.length_take_of_le hdin)
    have hlast := byteStep_ctr_last Config.E (keyInUse s) dir x hc
    rw [ctr_wraps hreg] at hlast
    rw [callStart_of_cb hcb, hmode, hx, byteFold_cons _ _ _ _ hlast rfl] at hfold
    cases hfold
    exact ⟨_, hexec, by simp [hcb], rfl, hf, hp⟩

end Sys2Proof.Machine

/-! PROOF. A message in several calls with CB = 1 (R116, R117). -/

namespace Sys2Proof.Machine

/-- The pieces of a message as served calls with CB = 1 compute the fold over the message, whatever the pieces are. -/
theorem runServed_calls (dir : Direction) (pieces : List (List Byte)) {s : State} (hidle : s.Idle) (hready : s.Ready)
    (hcb : s.cb = true) (hdin : s.din = []) (hdout : s.dout = []) {S' : FeedbackState} {ys : List Byte}
    (hfold : byteFold Config.E s.mode (keyInUse s) dir s.fs pieces.flatten = some (S', ys)) :
    runServed (callsOf dir pieces) s =
      some (ys, { s with fs := S', err := if pieces = [] then s.err else .ok }) := by
  induction pieces generalizing s ys with
  | nil =>
    cases hfold
    rfl
  | cons piece pieces ih =>
    obtain ⟨t, S₁, us, hexec, hpiece, hserve⟩ :=
      servedCallDeliversEveryByte dir piece s hidle hready hdin hdout
    rw [callStart_of_cb hcb] at hpiece
    obtain ⟨S₂, vs, hrest, -⟩ := byteFold_completes Config.E s.mode (keyInUse s) dir S₁ pieces.flatten
    rw [List.flatten_cons, byteFold_append _ _ _ _ hpiece hrest] at hfold
    cases hfold
    have hrun := ih (s := { s with fs := S₁, err := .ok }) hidle hready hcb hdin hdout hrest
    rw [ite_self] at hrun
    rw [if_pos hcb] at hserve
    simp only [callsOf] at hrun
    simp only [callsOf, List.map_cons, runServed, hexec, hserve, hrun, reduceCtorEq, if_false]

/-- Settles O26: both runs compute the fold over the message. -/
theorem chunkSizeIndependence : Obligations.ChunkSizeIndependence := by
  intro dir ps qs s hidle hready hcb hdin hdout hps hqs heq
  obtain ⟨S', ys, hfold, hlen⟩ := byteFold_completes Config.E s.mode (keyInUse s) dir s.fs ps.flatten
  have hp := runServed_calls dir ps hidle hready hcb hdin hdout hfold
  have hq := runServed_calls dir qs hidle hready hcb hdin hdout (heq ▸ hfold)
  rw [if_neg hps] at hp
  rw [if_neg hqs] at hq
  exact ⟨_, _, hp, hq, hlen⟩

/-- Settles O27: the second run folds the decryption over the first one's output, which undoes it. -/
theorem roundTripInAnyChunking : Obligations.RoundTripInAnyChunking := by
  intro ps s₁ s₂ hidle₁ hidle₂ hready₁ hready₂ hcb₁ hcb₂ hdin₁ hdout₁ hdin₂ hdout₂ hmode hkey hiv hfs
  obtain ⟨S', C, henc, -⟩ := byteFold_completes Config.E s₁.mode (keyInUse s₁) .enc s₁.fs ps.flatten
  refine ⟨C, _, runServed_calls .enc ps hidle₁ hready₁ hcb₁ hdin₁ hdout₁ henc, ?_⟩
  rintro qs rfl
  have hdec := byteFold_round_trip henc
  rw [← hmode, ← hkey, ← hfs] at hdec
  exact ⟨_, runServed_calls .dec qs hidle₂ hready₂ hcb₂ hdin₂ hdout₂ hdec, rfl⟩

end Sys2Proof.Machine

/-! PROOF. The session controls without a payload that write CB, FS or nothing (R134 to R137). -/

namespace Sys2Proof.Machine

/-- Settles O49: both commands complete at once. -/
theorem cbonAndCboffEffect : Obligations.CbonAndCboffEffect := by
  rintro s ⟨-, -, hp⟩
  exact ⟨congrArg _ (status_of_idle (s := { s with cb := true }) hp .ok),
    congrArg _ (status_of_idle (s := { s with cb := false }) hp .ok)⟩

/-- Settles O50: `fsReset` and the code. -/
theorem resetfsEffect : Obligations.ResetfsEffect := by
  rintro s ⟨-, -, hp⟩
  exact congrArg _ (status_of_idle (s := fsReset s) hp .ok)

/-- Settles O51: the operand is not looked at, and the engine that reads BLKSZ is not busy. -/
theorem setblklenEffect : Obligations.SetblklenEffect := by
  rintro v s ⟨-, -, hp⟩
  have hbusy : State.busy { s with err := .ok } = false := congrArg Option.isSome hp
  exact ⟨congrArg _ (status_of_idle hp .ok), csrRead_word_of_idle hbusy 3#6⟩

end Sys2Proof.Machine

/-! PROOF. Which command writes FS (R138), and the three that leave it at the init state of the IV (R139). -/

namespace Sys2Proof.Machine

theorem task_of_fs_changed {P : Params} {p : Progress} {s : State} (h : (advance P p s).fs ≠ s.fs) :
    (∃ dir pending, p.task = .process dir .live pending) ∨ (∃ got, p.task = .loadKey got) ∨
      ∃ got, p.task = .loadIv got := by
  by_contra! hno
  obtain ⟨hcall, hkey, hiv⟩ := hno
  exact h (advance_fs P p s hcall hkey hiv)

/-- Only a call with CB = 1 starts as a call on FS itself (R112). -/
theorem call_of_live {i : Instr} (h : takesPayload i = true) {s : State} {dir : Direction} {pending : List Byte}
    (ht : taskOf i s = .process dir .live pending) : s.cb = true ∧ ∃ dir n, i = callOf dir n := by
  rcases taskOf_cases h s with ⟨_, n, hi, -, h'⟩ | ⟨_, -, -, h'⟩ | ⟨-, h'⟩ | ⟨_, -, h'⟩
  · obtain ⟨-, hlive, -⟩ := Task.process.inj (h'.symm.trans ht)
    refine ⟨?_, _, n, hi⟩
    by_contra hcb
    cases (if_neg hcb : startWork s = _).symm.trans hlive
  · cases h'.symm.trans ht
  · cases h'.symm.trans ht
  · cases h'.symm.trans ht

/-- Settles O19: a command with a payload writes FS as its task does, any other as SETMODE and RESETFS do. -/
theorem onlyTheseCommandsWriteFS : Obligations.OnlyTheseCommandsWriteFS := by
  refine ⟨fun i s t h hfs => ?_, fun s t p hp h hfs => ?_⟩
  · cases htp : takesPayload i with
    | true =>
      rw [exec_payload htp, Host.Outcome.next.injEq] at h
      subst h
      rcases task_of_fs_changed hfs with ⟨dir, pending, ht⟩ | ⟨got, ht⟩ | ⟨got, ht⟩
      · exact .inl (call_of_live htp ht)
      · exact .inr (.inl (setkey_of_loadKey htp ht))
      · exact .inr (.inr (.inl (setiv_of_loadIv htp ht)))
    | false =>
      obtain ⟨code, u, hexec, he⟩ := exec_immediate htp s
      rw [hexec, Host.Outcome.next.injEq] at h
      subst h
      obtain ⟨-, hi⟩ := he.fsCase.resolve_left hfs
      exact .inr (.inr (.inr hi))
  · rcases step_progress_cases hp h with ⟨-, rfl⟩ | rfl
    · exact absurd rfl hfs
    · exact task_of_fs_changed hfs

/-- A load that completes ends with FsReset, from the IV as it then stands (R131, R132). -/
theorem advance_load_fs {P : Params} {p : Progress} {s : State}
    (hload : ∃ got, p.task = .loadKey got ∨ p.task = .loadIv got) (hdone : (advance P p s).progress = none) :
    (advance P p s).fs = initFS (advance P p s).iv := by
  obtain ⟨w, n, task⟩ := p
  obtain ⟨got, rfl | rfl⟩ := hload
  · rw [advance_loadKey] at hdone ⊢
    split at hdone
    next hleft => rw [if_pos hleft]; rfl
    next => cases hdone
  · rw [advance_loadIv] at hdone ⊢
    split at hdone
    next hleft => rw [if_pos hleft]; rfl
    next => cases hdone

theorem advance_drain_err {P : Params} {w : Word} {n : Nat} {code : ErrCode} {s : State}
    (hdone : (advance P ⟨w, n, .drain code⟩ s).progress = none) : (advance P ⟨w, n, .drain code⟩ s).err = code := by
  rcases Nat.lt_or_ge s.din.length n with hshort | henough
  · rw [advance_drain_short P w code hshort] at hdone
    cases hdone
  · rw [advance_drain_enough P w code henough]

/-- A command with a payload that is no call (SETKEY, SETIV) and ends with OK leaves FS at the init state of the IV. -/
theorem exec_load_fs {i : Instr} (h : takesPayload i = true) (hcall : ∀ dir n, i ≠ callOf dir n) {s t : State}
    (hexec : exec i s = .next t) (hdone : t.progress = none) (hok : t.err = .ok) : t.fs = initFS t.iv := by
  rw [exec_payload h, Host.Outcome.next.injEq] at hexec
  subst hexec
  rcases taskOf_cases h s with ⟨dir, n, hi, -⟩ | ⟨-, -, -, ht⟩ | ⟨-, ht⟩ | ⟨code, hcode, ht⟩
  · exact absurd hi (hcall dir n)
  · exact advance_load_fs ⟨[], .inl ht⟩ hdone
  · exact advance_load_fs ⟨[], .inr ht⟩ hdone
  · rw [ht] at hdone hok
    exact absurd ((advance_drain_err hdone).symm.trans hok) hcode

/-- SETMODE that completes with OK leaves FS at the init state of the IV (R133). -/
theorem exec_setmode_fs {m : BitVec 2} {s t : State} (hexec : exec (.setmode m) s = .next t) (hok : t.err = .ok) :
    t.fs = initFS t.iv := by
  obtain ⟨code, u, hu, he⟩ := exec_immediate (i := .setmode m) rfl s
  rw [hu, Host.Outcome.next.injEq] at hexec
  subst hexec
  obtain ⟨-, hfs⟩ := he.setmode m rfl hok
  have hiv : u.iv = s.iv := by rw [he.keeps]
  rw [status_fs, status_iv, hfs, hiv]

/-- Settles O53: each of the three commands when it runs, and a load that goes on. -/
theorem keyIvAndModeChangesResetFS : Obligations.KeyIvAndModeChangesResetFS := by
  refine ⟨fun i s t hi hexec hdone hok => ?_, fun s t p hr hp hload h hdone => ?_⟩
  · obtain ⟨n, rfl⟩ | ⟨n, rfl⟩ | ⟨m, rfl⟩ := hi
    · exact exec_load_fs rfl (by rintro (_ | _) _ ⟨⟩) hexec hdone hok
    · exact exec_load_fs rfl (by rintro (_ | _) _ ⟨⟩) hexec hdone hok
    · exact exec_setmode_fs hexec hok
  · rcases step_progress_cases hp h with ⟨hhold, -⟩ | rfl
    · cases hr.symm.trans hhold
    · exact advance_load_fs hload hdone

end Sys2Proof.Machine

/-! PROOF. SETMODE, SETKEY and SETIV in any order (R140). -/

namespace Sys2Proof.Machine

/-- A command that completes at once with its payload supplied is run before the others. -/
theorem runSupplied_cons {i : Instr} {payload : List Byte} {rest : List (Instr × List Byte)} {s t : State}
    (hexec : exec i { s with din := payload } = .next t) (hdone : t.progress = none) :
    runSupplied ((i, payload) :: rest) s = runSupplied rest t := by
  simp only [runSupplied, hexec, hdone, if_true]

theorem runSupplied_nil (s : State) : runSupplied [] s = some s := rfl

theorem runSupplied_setmode {m : BitVec 2} {mode : Mode} (hm : streamingMode m = some mode)
    (rest : List (Instr × List Byte)) {s : State} (hp : s.progress = none) :
    runSupplied ((.setmode m, []) :: rest) s =
      runSupplied rest { s with din := [], mode := mode, fs := initFS s.iv, err := .ok } :=
  runSupplied_cons (exec_setmode_streaming hm (s := { s with din := [] }) hp) hp

theorem runSupplied_setkey {K : List Byte} (hK : K.length ∈ keyLengths) (rest : List (Instr × List Byte)) (s : State) :
    runSupplied ((.setkey K.length, K) :: rest) s =
      runSupplied rest { s with
        din := []
        key := keyOfBytes K
        keyLen := keyLenOf K.length
        fs := initFS s.iv
        err := .ok
        progress := none } := by
  rw [runSupplied_cons (exec_setkey_legal hK (s := { s with din := K }) le_rfl) rfl, List.drop_length, List.take_length]

theorem runSupplied_setiv {V : List Byte} (hV : V.length = blockBytes) (rest : List (Instr × List Byte)) (s : State) :
    runSupplied ((.setiv 16, V) :: rest) s =
      runSupplied rest { s with
        din := []
        iv := blockOfBytes V
        ivv := true
        fs := initFS (blockOfBytes V)
        err := .ok
        progress := none } := by
  rw [runSupplied_cons (exec_setiv_legal rfl (s := { s with din := V }) hV.ge) rfl, List.drop_of_length_le hV.le,
    List.take_of_length_le hV.le]

/-- Each command writes its own settings, and FsReset after the IV is written sees the new one: every order leaves the
same state (R140). -/
theorem runSupplied_configuration {m : BitVec 2} {mode : Mode} {K V : List Byte} {l : List (Instr × List Byte)}
    {s : State} (hp : s.progress = none) (hm : streamingMode m = some mode) (hK : K.length ∈ keyLengths)
    (hV : V.length = blockBytes) (hl : l.Perm [(.setmode m, []), (.setkey K.length, K), (.setiv 16, V)]) :
    runSupplied l s = some { s with
      din := []
      mode := mode
      key := keyOfBytes K
      keyLen := keyLenOf K.length
      iv := blockOfBytes V
      ivv := true
      fs := initFS (blockOfBytes V)
      err := .ok
      progress := none } := by
  have horders := List.mem_permutations'.mpr hl
  simp only [List.permutations', List.permutations'Aux, List.flatMap_cons, List.flatMap_nil, List.map_cons,
    List.map_nil, List.append_nil, List.cons_append, List.nil_append, List.mem_cons, List.not_mem_nil, or_false] at horders
  rcases horders with rfl | rfl | rfl | rfl | rfl | rfl <;>
    simp only [runSupplied_setmode hm, runSupplied_setkey hK, runSupplied_setiv hV, hp, runSupplied_nil]

theorem keyLenOf_ne_noKey (n : Nat) : keyLenOf n ≠ .noKey := by
  unfold keyLenOf
  split_ifs <;> decide

/-- The key in use after a load is the one loaded (R28, R131). -/
theorem take_keyOfBytes {K : List Byte} (hK : K.length ∈ keyLengths) :
    (keyOfBytes K).toList.take (keyLenOf K.length).bytes = K := by
  have hle : K.length ≤ 32 := by
    rcases mem_keyLengths.mp hK with h | h | h <;> omega
  rw [keyOfBytes_toList hle, keyLenOf_bytes hK, List.take_left]

/-- Settles O54: the settings in the state that every order leaves. -/
theorem configurationInAnyOrder : Obligations.ConfigurationInAnyOrder := by
  rintro m mode K V l s ⟨-, -, hp⟩ hm hK hV hl
  exact ⟨_, runSupplied_configuration hp hm hK hV hl, rfl, take_keyOfBytes hK, arrayOfBytes_toList_of_length _ _ hV,
    rfl, rfl, rfl, streamingMode_ne_blk hm, keyLenOf_ne_noKey _, rfl⟩

end Sys2Proof.Machine

/-! PROOF. The engine stops in a faulted state only, and reaches none (R154 to R157). -/

namespace Sys2Proof.Machine

/-- Every command answers a next state: none ends in a fault or a refusal (R154). -/
theorem exec_answers_next (i : Instr) (s : State) : ∃ t, exec i s = .next t := by
  cases htp : takesPayload i with
  | true => exact ⟨_, exec_payload htp s⟩
  | false =>
    obtain ⟨code, u, hexec, -⟩ := exec_immediate htp s
    exact ⟨_, hexec⟩

theorem runWord_answers_next (w : Word) (s : State) : ∃ t, runWord w s = .next t := by
  rcases runWord_cases w s with ⟨i, -, hrun⟩ | ⟨-, hrun⟩
  · rw [hrun]
    exact exec_answers_next i s
  · exact ⟨_, hrun⟩

/-- RST holds the engine where it is, faulted or not (R170). -/
theorem step_of_rst {s : State} (hr : s.rst = true) : step s = .next s := if_pos hr

/-- A faulted engine out of reset takes no step (R156, R157). -/
theorem step_of_fault {s : State} (hr : s.rst = false) (hf : s.fault = true) : step s = .fault .cursorRange := by
  simp only [step, hr, hf, Bool.false_eq_true, if_false, if_true]

theorem step_answers_next {s : State} (hf : s.fault = false) : ∃ t, step s = .next t := by
  cases hr : s.rst with
  | true => exact ⟨s, step_of_rst hr⟩
  | false =>
    cases hp : s.progress with
    | some p => exact ⟨_, step_busy hr hf hp⟩
    | none =>
      cases hc : s.cmd with
      | nil => exact ⟨s, step_idle_nil ⟨hr, hf, hp⟩ hc⟩
      | cons w ws =>
        rw [step_idle_cons ⟨hr, hf, hp⟩ hc]
        exact runWord_answers_next w _

/-- Settles O15: the invariant of reached states has no fault, and an engine without a fault takes a step. -/
theorem reachableEngineNeverStops : Obligations.ReachableEngineNeverStops :=
  fun _ h => ⟨h.inv.noFault, step_answers_next h.inv.noFault⟩

/-- Out of reset, no act of the host but asserting RST moves FAULT or RST (R157). -/
theorem ownerAct_keeps_fault (P : Params) {s : State} (hr : s.rst = false) {a : HostAction} (ha : a ≠ .assertRst) :
    (ownerAct P a s).fault = s.fault ∧ (ownerAct P a s).rst = s.rst := by
  cases a with
  | writeCmd w =>
    rw [ownerAct_writeCmd P hr, writeCmd]
    split <;> exact ⟨rfl, rfl⟩
  | supplyByte b =>
    rw [ownerAct_supplyByte P hr, supplyByte]
    split <;> exact ⟨rfl, rfl⟩
  | takeByte =>
    cases hd : s.dout with
    | nil => rw [ownerAct_takeByte_of_nil P hd]; exact ⟨rfl, rfl⟩
    | cons y ys => rw [ownerAct_takeByte_of_cons P hd]; exact ⟨rfl, rfl⟩
  | readCsr index => rw [ownerAct_readCsr]; exact ⟨rfl, rfl⟩
  | assertRst => exact absurd rfl ha
  | releaseRst => rw [ownerAct, hr, if_neg Bool.false_ne_true]; exact ⟨rfl, hr⟩

/-- Settles O16: FAULT through a step, each act of the host, hardware reset, and a command. -/
theorem faultIsStickyUntilReset : Obligations.FaultIsStickyUntilReset := by
  refine ⟨fun s hr hf => ⟨step_of_fault hr hf, fun a ha => ?_, _, rfl, rfl⟩, fun i s t h => ?_⟩
  · obtain ⟨hfault, hrst⟩ := ownerAct_keeps_fault Config.params hr ha
    exact ⟨_, rfl, hfault.trans hf, hrst.trans hr⟩
  · obtain ⟨-, -, -, -, -, -, hfault, -⟩ := onlyItsCommandWritesEachSetting.1 i s t h
    exact hfault

/-- A STATUS read gives BUSY and FAULT as they are, busy or not (R37, R65, R180). -/
theorem csrRead_status_fields (s : State) :
    (csrRead 1#6 s).1.extractLsb' 4 1 = BitVec.ofBool s.busy ∧
      (csrRead 1#6 s).1.extractLsb' 5 1 = BitVec.ofBool s.fault := by
  rw [csrRead_word]
  split
  · exact busyWord_status_fields s _
  · obtain ⟨-, hbusy, hfault, -⟩ := csrStatus_fields s
    exact ⟨hbusy, hfault⟩

/-- Settles O17: the fault action by its definition, then the step and the STATUS read of a faulted engine. -/
theorem raisingTheFaultStopsTheEngine : Obligations.RaisingTheFaultStopsTheEngine := by
  intro s hr
  obtain ⟨hbusy, hfault⟩ := csrRead_status_fields (raiseFault s)
  exact ⟨rfl, rfl, step_of_fault hr rfl, hfault, hbusy⟩

end Sys2Proof.Machine

/-! PROOF. What a rejection changes (R152). -/

namespace Sys2Proof.Machine

/-- Only a rejected command completes with a code other than OK, and it has popped its payload (R57, R152). -/
theorem exec_payload_rejected {i : Instr} (htp : takesPayload i = true) {s t : State} (hp : s.progress = none)
    (hdin : i.payloadBytes ≤ s.din.length) (hexec : exec i s = .next t) (hdone : t.progress = none)
    (herr : t.err ≠ .ok) : t = { s with din := s.din.drop i.payloadBytes, err := t.err } := by
  have hdrain : ∃ code, taskOf i s = .drain code := by
    rw [exec_payload htp, Host.Outcome.next.injEq] at hexec
    subst hexec
    by_contra! hno
    exact herr (advance_err_ok _ _ s hdone hno)
  obtain ⟨code, htask⟩ := hdrain
  rw [exec_rejected_enough htp htask hdin, Host.Outcome.next.injEq] at hexec
  rw [← hexec, hp]

/-- A command without a payload that ends with a code other than OK has written that code alone (R152). -/
theorem exec_immediate_rejected {i : Instr} (htp : takesPayload i = false) {s t : State} (hp : s.progress = none)
    (hexec : exec i s = .next t) (herr : t.err ≠ .ok) : t = { s with err := t.err } := by
  obtain ⟨code, u, hu, he⟩ := exec_immediate htp s
  rw [hu, Host.Outcome.next.injEq] at hexec
  subst hexec
  rw [he.failed herr]
  exact status_of_idle hp code

/-- A rejection looks at no parameter of the engine, E among them (R152). -/
theorem rejectCommand_params (P Q : Params) (w : Word) (n : Nat) (code : ErrCode) (s : State) :
    rejectCommand P w n code s = rejectCommand Q w n code s := by
  rw [rejectCommand, rejectCommand, advance_drain, advance_drain]

/-- Settles O18: what each kind of rejection leaves, and that its drain has no use for E. -/
theorem rejectionIsPrecise : Obligations.RejectionIsPrecise := by
  refine ⟨fun i s t hidle hdin hexec hdone herr => ?_, fun E w dir n s hcheck => ?_,
    fun E w n code s => rejectCommand_params _ _ w n code s, fun w s hidle hdecode hdin => ?_⟩
  · obtain ⟨-, -, hp⟩ := hidle
    cases htp : takesPayload i with
    | true => exact exec_payload_rejected htp hp hdin hexec hdone herr
    | false =>
      rw [payloadBytes_immediate htp, List.drop_zero]
      exact exec_immediate_rejected htp hp hexec herr
  · rw [processCommand_rejected _ w dir n s hcheck, processCommand_rejected _ w dir n s hcheck]
    exact rejectCommand_params _ _ w n _ s
  · obtain ⟨-, -, hp⟩ := hidle
    rw [runWord_reservedField hdecode, advance_drain_enough _ w _ hdin, ← hp]

end Sys2Proof.Machine

/-! PROOF. What the CSRs read right after reset (R172), and the refusal of a second host (R179). -/

namespace Sys2Proof.Machine

/-- Every word of the zero block is zero, and so is what stands past its end. -/
theorem blockWord_zeroBlock (k : Nat) : blockWord zeroBlock k = 0#32 := by
  have hbyte (j : Nat) : zeroBlock.toList.getD j 0#8 = 0#8 := by
    rw [Vector.toList_replicate, List.getD_eq_getElem?_getD, List.getElem?_getD_replicate_default_eq]
  rw [blockWord, hbyte, hbyte, hbyte, hbyte]
  rfl

/-- While REG, KS and IV hold the zero block, no CSR but the first four reads other than 0 (R40 to R42, R51). -/
theorem csrWord_of_zeroBlocks {s : State} (hreg : s.fs.reg = zeroBlock) (hks : s.fs.ks = zeroBlock)
    (hiv : s.iv = zeroBlock) {index : BitVec 6} (h : 4 ≤ index.toNat) : csrWord s index = 0#32 := by
  obtain hmapped | hunmapped := Nat.lt_or_ge index.toNat 16
  · rw [csrWord, if_neg (by omega), if_neg (by omega), if_neg (by omega), if_neg (by omega), hreg, hks, hiv]
    simp only [blockWord_zeroBlock, ite_self]
  · exact csrWord_unmapped s hunmapped

/-- Settles O10: CTRL, STATUS, CURSOR and BLKSZ by their reset values, the words of the three zero blocks and the
unmapped addresses by the CSR map. -/
theorem resetCsrReads : Obligations.ResetCsrReads := by
  intro index
  rw [csrRead_word_of_idle rfl]
  obtain hfirst | hrest := Nat.lt_or_ge index.toNat 4
  · have hindex : index = 0#6 ∨ index = 1#6 ∨ index = 2#6 ∨ index = 3#6 := by bv_omega
    obtain rfl | rfl | rfl | rfl := hindex
    · exact (rfl : csrCtrl State.reset = 0x00000003#32)
    · exact (rfl : csrStatus State.reset = 0#32)
    · exact (rfl : csrCursor State.reset = 0#32)
    · exact (rfl : csrBlksz = 0x00000010#32)
  · have hctrl : index ≠ 0#6 := by bv_omega
    have hblksz : index ≠ 3#6 := by bv_omega
    rw [if_neg hctrl, if_neg hblksz]
    exact csrWord_of_zeroBlocks rfl rfl rfl hrest

/-- Settles O60: `hostAct` refuses by who acts, before it looks at the act or the state. -/
theorem secondHostIsRefused : Obligations.SecondHostIsRefused := fun _ _ => rfl

end Sys2Proof.Machine
